-- ==== Sys2Proof/Word.lean ====
section
/-! DEFINITION. The value types of CORE: machine words and floating-point data. -/

namespace Sys2Proof

/-- A host register and every MODEXP operand: W = 32 bits (R7, D3). -/
abbrev Word := BitVec 32

/-- A MODEXP product: PW = 64 bits (R7, D3). -/
abbrev DWord := BitVec 64

/-- A byte lane of a platform bus (R36). -/
abbrev Byte := BitVec 8

/-- A datum of a binary IEEE 754 format (R11, G1, log 12): not a number (one, without payload: no rule reads one),
an infinity, or the value (-1)^neg * sig * 2^exp. Which `sig` and `exp` a format admits is `Fp.wf`. -/
inductive Fp where
  | nan
  | inf (neg : Bool)
  | fin (neg : Bool) (sig : Nat) (exp : Int)
  deriving DecidableEq, Repr, Inhabited

end Sys2Proof
end

