-- ==== Sys2Proof/Config.lean ====
section
/-! DEFINITION. The parameters of CORE (R7), the parameters a platform fixes (U6), and the values the spec leaves open. -/

namespace Sys2Proof

/-- The four series constants C (R7 `CSET`). -/
inductive SeriesConst where
  | c1 | c4 | c5 | c6
  deriving DecidableEq, Repr, Inhabited

/-- The integer a series constant stands for. -/
def SeriesConst.val : SeriesConst → Nat
  | .c1 => 1
  | .c4 => 4
  | .c5 => 5
  | .c6 => 6

/-- The size of a binary floating-point format: `prec` bits of significand, `emax` the largest exponent. -/
structure FpFormat where
  prec : Nat
  emax : Nat
  deriving DecidableEq, Repr

/-- The exponent of the format's smallest unit: subnormals are multiples of 2^qmin. -/
def FpFormat.qmin (f : FpFormat) : Int := 2 - (f.emax : Int) - (f.prec : Int)

/-- The largest exponent of a unit in the last place. -/
def FpFormat.qmax (f : FpFormat) : Int := (f.emax : Int) - (f.prec : Int) + 1

/-- `FP` (R7, D4, U5): IEEE 754 binary64. Another format is another value here, not another semantics. -/
def Config.fp : FpFormat := { prec := 53, emax := 1023 }

/-- `TAIL` (R7): the number of tail terms of a series sum. -/
def Config.tail : Nat := 5

/-- `N_MAX` (R7, D7): the largest digit index HEXDIGIT accepts. -/
def Config.nMax : Nat := 0x1FFFFFFF

/-- `NREG` (R7, D8): the number of word addresses in the register window. -/
def Config.nReg : Nat := 8

/-- `CORE_BASE / 32` (R35, U6): the platform chooses it, so nothing is known of it (log 9). -/
opaque Config.coreBaseBlock : Nat

/-- `CORE_BASE` (R35): the byte address of the register window, aligned to 32 bytes. -/
def Config.coreBase : Nat := 32 * Config.coreBaseBlock

/-- `RST_CYCLES` (R125, U6): the platform's minimum assertion length of `rst`. No rule reads it: R116 acts in the step
in which `rst` is applied (log 9). -/
opaque Config.rstCycles : Nat

/-! Free values (log 5, 13, 14): no body, so that no proof can see what they are. -/

/-- The 32-bit MODEXP register number `reg` where U2 says 'any value'; `n` is `State.freeCtr`. -/
opaque Config.freeWord (reg n : Nat) : Word

/-- The MODEXP product register where U2 says 'any value'. -/
opaque Config.freeProduct (n : Nat) : DWord

/-- The BBPX loop counter where U2 says 'any value'. -/
opaque Config.freeCount (n : Nat) : Nat

/-- The BBPX series constant register where U2 says 'any value'. -/
opaque Config.freeSeries (n : Nat) : SeriesConst

/-- The BBPX FP register number `reg` where U2 says 'any value'. -/
opaque Config.freeFp (reg n : Nat) : Fp

/-- `toInt` of a value that is no integer in [0, 15]: R11 gives none. -/
opaque Config.toIntUnstated (a : Fp) : BitVec 4

/-- ModExp with modulus 0: R82 says it is never evaluated, so the spec gives no result. -/
opaque Config.modExpByZero (base exponent : Word) : Word

/-- HexDigitAt above N_MAX: R97 gives no result there, since issue never accepts such an index. -/
opaque Config.hexDigitBeyond (n : Word) : BitVec 4

end Sys2Proof
end

