-- ==== Sys2Proof/Syntax.lean ====
section
/-! DEFINITION. The instructions of CORE: one constructor per row of spec/opcode_table.json. -/

namespace Sys2Proof

/-- The operations of CORE. The first sixteen are the bus transactions of R48 (a read ignores `wdata`, so it has no
operand); the last five are the command words of R50, whose meaning is that of the write to CMD that carries them (R28). -/
inductive Instr where
  | rdCmd | rdStatus | rdArg0 | rdArg1 | rdArg2 | rdResult | rdRsv6 | rdRsv7
  | wrCmd (v : Word) | wrStatus (v : Word) | wrArg0 (v : Word) | wrArg1 (v : Word) | wrArg2 (v : Word)
  | wrResult (v : Word) | wrRsv6 (v : Word) | wrRsv7 (v : Word)
  | nop | powmod | hexdigit | clear | illegal (w : Word)
  deriving DecidableEq, Repr

/-- An encoded operation in one of CORE's two formats (30_encoding.md): a 36-bit bus transaction `{we, addr, wdata}`
(R47) or a 32-bit command word `{RSV, OP}` (R49). -/
inductive Code where
  | bus (t : BitVec 36)
  | cmd (w : Word)
  deriving DecidableEq, Repr

end Sys2Proof
end

