-- ==== Sys2Proof/WellFormed.lean ====
section
/-! DEFINITION. Which instructions the encoding admits. -/

namespace Sys2Proof

/-- Every operand of every instruction is admitted, but for one: `illegal w` stands only for a word with `RSV != 0` or
`OP >= 4` (R51), the other four words being the other four commands. -/
def Instr.wf : Instr → Bool
  | .illegal w => w.extractLsb' 4 28 != 0#28 || 4 ≤ (w.extractLsb' 0 4).toNat
  | .rdCmd | .rdStatus | .rdArg0 | .rdArg1 | .rdArg2 | .rdResult | .rdRsv6 | .rdRsv7 => true
  | .wrCmd _ | .wrStatus _ | .wrArg0 _ | .wrArg1 _ | .wrArg2 _ | .wrResult _ | .wrRsv6 _ | .wrRsv7 _ => true
  | .nop | .powmod | .hexdigit | .clear => true

/-- A transaction as a transcriber writes it: `wdata` of a read is 0 (R55). -/
def Code.canonical : Code → Bool
  | .bus t => t.getLsbD 35 || t.extractLsb' 0 32 == 0#32
  | .cmd _ => true

end Sys2Proof
end

