-- ==== Sys2Proof/Decode.lean ====
section
/-! DEFINITION. Decoding and encoding (30_encoding.md). Both formats are total: no transaction is illegal (R48), and a
word that is no command is the instruction ILLEGAL (R50, R51). -/

namespace Sys2Proof

/-- The transaction `{we, addr[2:0], wdata[31:0]}` (R47; `{a, b}` has `a` in the more significant bits, R9). -/
def packBus (we : Bool) (addr : BitVec 3) (wdata : Word) : BitVec 36 :=
  (BitVec.ofBool we ++ addr) ++ wdata

/-- `ctl = {we, addr}` of a transaction (R47). -/
def busCtl (t : BitVec 36) : BitVec 4 := t.extractLsb' 32 4

/-- `wdata` of a transaction (R47). -/
def busWdata (t : BitVec 36) : Word := t.extractLsb' 0 32

/-- `OP = w[3:0]` (R49). -/
def cmdOp (w : Word) : BitVec 4 := w.extractLsb' 0 4

/-- `RSV = w[31:4]` (R49). -/
def cmdRsv (w : Word) : BitVec 28 := w.extractLsb' 4 28

/-- A bus transaction's operation, by its `ctl` (R48). -/
def decodeBus (t : BitVec 36) : Instr :=
  match (busCtl t).toNat with
  | 0x0 => .rdCmd
  | 0x1 => .rdStatus
  | 0x2 => .rdArg0
  | 0x3 => .rdArg1
  | 0x4 => .rdArg2
  | 0x5 => .rdResult
  | 0x6 => .rdRsv6
  | 0x7 => .rdRsv7
  | 0x8 => .wrCmd (busWdata t)
  | 0x9 => .wrStatus (busWdata t)
  | 0xA => .wrArg0 (busWdata t)
  | 0xB => .wrArg1 (busWdata t)
  | 0xC => .wrArg2 (busWdata t)
  | 0xD => .wrResult (busWdata t)
  | 0xE => .wrRsv6 (busWdata t)
  | _ => .wrRsv7 (busWdata t)

/-- A command word's operation, by exact match on all 32 bits (R50). -/
def decodeCmd (w : Word) : Instr :=
  if w = 0x00000000#32 then .nop
  else if w = 0x00000001#32 then .powmod
  else if w = 0x00000002#32 then .hexdigit
  else if w = 0x00000003#32 then .clear
  else .illegal w

/-- The decoder of both formats. -/
def decode : Code → Instr
  | .bus t => decodeBus t
  | .cmd w => decodeCmd w

/-- The encoder, from the tables of R48 and R50; `wdata` of a read is written 0 (R55). -/
def encode : Instr → Code
  | .rdCmd => .bus (0x0#4 ++ 0#32)
  | .rdStatus => .bus (0x1#4 ++ 0#32)
  | .rdArg0 => .bus (0x2#4 ++ 0#32)
  | .rdArg1 => .bus (0x3#4 ++ 0#32)
  | .rdArg2 => .bus (0x4#4 ++ 0#32)
  | .rdResult => .bus (0x5#4 ++ 0#32)
  | .rdRsv6 => .bus (0x6#4 ++ 0#32)
  | .rdRsv7 => .bus (0x7#4 ++ 0#32)
  | .wrCmd v => .bus (0x8#4 ++ v)
  | .wrStatus v => .bus (0x9#4 ++ v)
  | .wrArg0 v => .bus (0xA#4 ++ v)
  | .wrArg1 v => .bus (0xB#4 ++ v)
  | .wrArg2 v => .bus (0xC#4 ++ v)
  | .wrResult v => .bus (0xD#4 ++ v)
  | .wrRsv6 v => .bus (0xE#4 ++ v)
  | .wrRsv7 v => .bus (0xF#4 ++ v)
  | .nop => .cmd 0x00000000#32
  | .powmod => .cmd 0x00000001#32
  | .hexdigit => .cmd 0x00000002#32
  | .clear => .cmd 0x00000003#32
  | .illegal w => .cmd w

/-- The encoded operation whose bits, NUMBERED AS spec/opcode_table.json NUMBERS THEM, are `w` (log 10). A row of 32 bits
is a command word. The other rows are bus transactions, whose `ctl` the table puts at bits 3:0 and `wdata` at bits 35:4;
their rows give 4 bits, so `nbits` is at most 40. -/
def tableCode (nbits w : Nat) : Option Code :=
  if nbits = 32 then
    if w < 2 ^ 32 then some (.cmd (BitVec.ofNat 32 w)) else none
  else if nbits ≤ 40 then
    if w < 2 ^ 36 then some (.bus (BitVec.ofNat 4 (w % 16) ++ BitVec.ofNat 32 (w / 16))) else none
  else none

/-- The instruction the decoder reads from a word numbered as the opcode table numbers it. -/
def decodeTableWord (nbits w : Nat) : Option Instr :=
  match tableCode nbits w with
  | some c => some (decode c)
  | none => none

end Sys2Proof
end

