-- ==== Sys2Proof/Machine/State.lean ====
section
/-! DEFINITION. The state of CORE (10_state.md), what a step can find at its inputs, how a step can stop, and reset. -/

namespace Sys2Proof.Machine

/-- STATUS (R18): its four fields. Bits 3:2 and 31:9 are hardwired 0 and have no storage. -/
structure Status where
  /-- Bit 0: a command is in flight (R19). -/
  busy : Bool
  /-- Bit 1: the last accepted command has ended (R20). -/
  done : Bool
  /-- Bits 7:4: the error code (R21). -/
  err : BitVec 4
  /-- Bit 8, sticky: a write was dropped (R22). -/
  busyErr : Bool
  deriving DecidableEq, Repr

/-- The commands that can be in flight (R30). -/
inductive PendOp where
  | powmod
  | hexdigit
  deriving DecidableEq, Repr

/-- The in-flight command record PEND when it is not `none` (R30). -/
structure Pending where
  op : PendOp
  a0 : Word
  a1 : Word
  a2 : Word
  deriving DecidableEq, Repr

/-- The MODEXP datapath registers (R31). -/
structure ModexpRegs where
  r : Word
  b : Word
  e : Word
  m : Word
  prod : DWord
  deriving DecidableEq, Repr

/-- The BBPX datapath registers (R32; the widths of `k` and `c` are log 18). -/
structure BbpxRegs where
  k : Nat
  c : SeriesConst
  f : Fp
  t : Fp
  s1 : Fp
  s4 : Fp
  s5 : Fp
  s6 : Fp
  raw : Fp
  x : Fp
  y : Fp
  deriving DecidableEq, Repr

/-- The hidden registers of the two units. -/
structure Datapath where
  modexp : ModexpRegs
  bbpx : BbpxRegs
  deriving DecidableEq, Repr

/-- What CORE's input ports hold in one step (R15). -/
structure Pins where
  rst : Bool
  sel : Bool
  we : Bool
  addr : BitVec 3
  wdata : Word
  deriving DecidableEq, Repr

/-- An access of a byte-addressed platform bus (R35 to R37): a read of `size` bytes, or a write of some bytes, the
first at the lowest address. -/
inductive PlatformAccess where
  | read (addr size : Nat)
  | write (addr : Nat) (bytes : List Byte)
  deriving DecidableEq, Repr

/-- Which agent takes a step, and with what (R13). A step in which the input ports present nothing is `pins` with
`rst` and `sel` both 0. -/
inductive Turn where
  | pins (p : Pins)
  | platform (a : PlatformAccess)
  | engine
  deriving DecidableEq, Repr

/-- CORE's state (10_state.md), and two fields of the model's own: `turns` and `freeCtr`. -/
structure State where
  /-- R17 -/
  cmd : Word
  /-- R18 to R22 -/
  status : Status
  /-- R23 -/
  arg0 : Word
  /-- R24 -/
  arg1 : Word
  /-- R25 -/
  arg2 : Word
  /-- R26 -/
  result : Word
  /-- PEND, R30 -/
  pend : Option Pending
  /-- R31, R32 -/
  datapath : Datapath
  /-- The output port `rdata` (R15): what the step that led here returned, if it was a read (log 3). -/
  rdata : Option Word
  /-- The model's own: the schedule still to come, the next turn first (log 1). -/
  turns : List Turn
  /-- The model's own: how often the datapath has been given free values (log 5). -/
  freeCtr : Nat
  deriving DecidableEq, Repr

/-- Why the machine stops. CORE itself never traps: its errors are recorded in STATUS (R108) and are next states. -/
inductive Fault where
  /-- Raised by a step whose input ports hold both `rst` and `sel`: R125 says no transaction may be presented in the
  step of a reset, and gives no effect to one that is. Safe: the model stops (log 7). -/
  | transactionDuringReset
  deriving DecidableEq, Repr

/-- Why the model gives no meaning. Every one is safe: the model stops. -/
inductive Refusal where
  /-- Raised by an arm of `exec` whose instruction has no meaning yet; no arm is such a one. -/
  | notModelled (mnemonic : String)
  /-- Raised by a platform access that is not 4 bytes wide: R37 says a model refuses it (log 8). -/
  | notWholeWord
  /-- Raised by a platform access of 4 bytes that is not aligned in the window: R37 says a model refuses it (log 8). -/
  | misaligned
  /-- Raised by a platform access outside the 32 bytes of the window: R40 leaves it to the platform (log 8). -/
  | outsideWindow
  deriving DecidableEq, Repr

/-- STATUS with every field 0. -/
def Status.zero : Status := { busy := false, done := false, err := 0, busyErr := false }

/-- The MODEXP registers as State.reset holds them: the spec gives no values (R117; DESIGN CHOICE, log 4). -/
def ModexpRegs.zero : ModexpRegs := { r := 0, b := 0, e := 0, m := 0, prod := 0 }

/-- The BBPX registers as State.reset holds them: the spec gives no values (R117; DESIGN CHOICE, log 4). -/
def BbpxRegs.zero : BbpxRegs :=
  let z := Fp.fin false 0 Config.fp.qmin
  { k := 0, c := .c1, f := z, t := z, s1 := z, s4 := z, s5 := z, s6 := z, raw := z, x := z, y := z }

/-- The state right after reset (R117), with nothing scheduled (log 1) and nothing read (log 3). -/
def State.reset : State where
  cmd := 0
  status := Status.zero
  arg0 := 0
  arg1 := 0
  arg2 := 0
  result := 0
  pend := none
  datapath := { modexp := ModexpRegs.zero, bbpx := BbpxRegs.zero }
  rdata := none
  turns := []
  freeCtr := 0

end Sys2Proof.Machine
end

