-- ==== Sys2Proof/Machine/Flags.lean ====
section
/-! DEFINITION. STATUS: its word, its outputs, and the changes the rules make to it (R18 to R22, R101). -/

namespace Sys2Proof.Machine

/-- The word a read of STATUS returns: `{23'b0, BUSYERR, ERR, 2'b00, DONE, BUSY}` (R58). -/
def Status.toWord (st : Status) : Word :=
  0#23 ++ BitVec.ofBool st.busyErr ++ st.err ++ 0#2 ++ BitVec.ofBool st.done ++ BitVec.ofBool st.busy

/-- The errors that have a code (R101). -/
inductive ErrorKind where
  | invalidArgument
  | illegalCommand
  | indexRange
  deriving DecidableEq, Repr

/-- The code of an error in STATUS.ERR (R101). -/
def errorCode : ErrorKind → BitVec 4
  | .invalidArgument => 1
  | .illegalCommand => 2
  | .indexRange => 3

/-- STATUS when POWMOD or HEXDIGIT is accepted: BUSYERR is kept (R76, R77). -/
def Status.accept (st : Status) : Status := { st with busy := true, done := false, err := 0 }

/-- STATUS at a completion step: ERR and BUSYERR are kept (R78). -/
def Status.complete (st : Status) : Status := { st with busy := false, done := true }

/-- STATUS when an error is recorded: BUSY and BUSYERR are kept (R108). -/
def Status.record (st : Status) (e : ErrorKind) : Status := { st with done := true, err := errorCode e }

/-- STATUS after CLEAR: BUSY is kept (R74). -/
def Status.clear (st : Status) : Status := { st with done := false, err := 0, busyErr := false }

/-- STATUS when a write is dropped (R105). -/
def Status.drop (st : Status) : Status := { st with busyErr := true }

/-- The output port `busy_o` (R33). -/
def State.busyO (s : State) : Bool := s.status.busy

/-- The output port `done_o` (R33, R110). -/
def State.doneO (s : State) : Bool := s.status.done

end Sys2Proof.Machine
end

