-- ==== Sys2Proof/Machine/Operands.lean ====
section
/-! DEFINITION. Operands: the register window read by word address (R16), and what a command captures (R52). -/

namespace Sys2Proof.Machine

/-- The registers of the window (R16). -/
inductive Reg where
  | cmd | status | arg0 | arg1 | arg2 | result | rsv6 | rsv7
  deriving DecidableEq, Repr

/-- The register at word address A (R16, R40). -/
def Reg.ofAddr (a : BitVec 3) : Reg :=
  match a.toNat with
  | 0 => .cmd
  | 1 => .status
  | 2 => .arg0
  | 3 => .arg1
  | 4 => .arg2
  | 5 => .result
  | 6 => .rsv6
  | _ => .rsv7

/-- The value of `x[A]` (R12): the reserved addresses read 0 (R27). -/
def State.readReg (s : State) : Reg → Word
  | .cmd => s.cmd
  | .status => s.status.toWord
  | .arg0 => s.arg0
  | .arg1 => s.arg1
  | .arg2 => s.arg2
  | .result => s.result
  | .rsv6 => 0
  | .rsv7 => 0

/-- What an accepted command captures: the three arguments as they stand at the write to CMD (R30, R52). -/
def State.capture (s : State) (op : PendOp) : Pending := { op := op, a0 := s.arg0, a1 := s.arg1, a2 := s.arg2 }

end Sys2Proof.Machine
end

