-- ==== Sys2Proof/Machine/Ops.lean ====
section
/-! DEFINITION. The operations the instructions share: reading a register, a write that BUSY can drop, issuing a command,
recording an error (60_exceptions.md section 3) and clearing it, and reset. -/

namespace Sys2Proof.Machine

/-- `BusRead(A)` (R12): `rdata` gets the register's value and nothing else changes (R39). -/
def State.busRead (s : State) (r : Reg) : State := { s with rdata := some (s.readReg r) }

/-- A write to CMD, ARG0, ARG1 or ARG2: dropped with BUSYERR set while BUSY = 1 (R105), performed otherwise. -/
def State.guardedWrite (s : State) (write : State → State) : State :=
  if s.status.busy then { s with status := s.status.drop } else write s

/-- The part of IssueCommand that is the same for every word: the busy check, then CMD holds the word, then the word's
own effect (R71). -/
def State.issue (s : State) (w : Word) (effect : State → State) : State :=
  s.guardedWrite fun s => effect { s with cmd := w }

/-- `raise E(info)` at issue: CORE's whole 'trap entry' (R108). -/
def State.raiseError (s : State) (e : ErrorKind) : State := { s with status := s.status.record e }

/-- `Clear()`: CORE's 'trap return' (R74, R109). -/
def State.clearErrors (s : State) : State := { s with status := s.status.clear }

/-- The acceptance of POWMOD or HEXDIGIT (R76, R77). -/
def State.accept (s : State) (op : PendOp) : State :=
  { s with pend := some (s.capture op), status := s.status.accept }

/-- `IssuePowMod()` (R76). -/
def State.issuePowMod (s : State) : State :=
  if s.arg2 = 0#32 then s.raiseError .invalidArgument else s.accept .powmod

/-- `IssueHexDigit()` (R77). -/
def State.issueHexDigit (s : State) : State :=
  if Config.nMax < s.arg0.toNat then s.raiseError .indexRange else s.accept .hexdigit

/-- The datapath where the spec says 'any value' (R117, U2): the free values number `n` (log 5). -/
def Datapath.free (n : Nat) : Datapath where
  modexp :=
    { r := Config.freeWord 0 n, b := Config.freeWord 1 n, e := Config.freeWord 2 n, m := Config.freeWord 3 n,
      prod := Config.freeProduct n }
  bbpx :=
    { k := Config.freeCount n, c := Config.freeSeries n, f := Config.freeFp 0 n, t := Config.freeFp 1 n,
      s1 := Config.freeFp 2 n, s4 := Config.freeFp 3 n, s5 := Config.freeFp 4 n, s6 := Config.freeFp 5 n,
      raw := Config.freeFp 6 n, x := Config.freeFp 7 n, y := Config.freeFp 8 n }

/-- The datapath's registers take free values, and the counter moves on. -/
def State.freeDatapath (s : State) : State :=
  { s with datapath := Datapath.free s.freeCtr, freeCtr := s.freeCtr + 1 }

/-- `Reset()` (R116). The datapath registers have unspecified values afterwards (R117). -/
def State.resetCore (s : State) : State :=
  { s.freeDatapath with
    cmd := 0, status := Status.zero, arg0 := 0, arg1 := 0, arg2 := 0, result := 0, pend := none }

end Sys2Proof.Machine
end

