-- ==== Sys2Proof/Machine/HostReads.lean ====
section
/-! DEFINITION. The read transactions (40_host_access.md section 1). -/

namespace Sys2Proof.Machine

/-- What a step of the machine answers. -/
abbrev Result := Host.Outcome State Fault Refusal

/-- RD.CMD (R57). -/
def execRdCmd (s : State) : Result := .next (s.busRead .cmd)

/-- RD.STATUS (R58). -/
def execRdStatus (s : State) : Result := .next (s.busRead .status)

/-- RD.ARG0 (R59). -/
def execRdArg0 (s : State) : Result := .next (s.busRead .arg0)

/-- RD.ARG1 (R60). -/
def execRdArg1 (s : State) : Result := .next (s.busRead .arg1)

/-- RD.ARG2 (R61). -/
def execRdArg2 (s : State) : Result := .next (s.busRead .arg2)

/-- RD.RESULT (R62). -/
def execRdResult (s : State) : Result := .next (s.busRead .result)

/-- RD.RSV6 (R63). -/
def execRdRsv6 (s : State) : Result := .next (s.busRead .rsv6)

/-- RD.RSV7 (R63). -/
def execRdRsv7 (s : State) : Result := .next (s.busRead .rsv7)

end Sys2Proof.Machine
end

