-- ==== Sys2Proof/Machine/Commands.lean ====
section
/-! DEFINITION. The command words (41_commands.md section 2). The meaning of one is that of the write to CMD which
carries it, busy check included (R28, R71; log 11). -/

namespace Sys2Proof.Machine

/-- NOP: only CMD is written (R73). -/
def execNop (s : State) : Result := .next (s.issue 0x00000000#32 fun s => s)

/-- POWMOD: issue (R76). The value follows at the completion step (R78, R87). -/
def execPowmod (s : State) : Result := .next (s.issue 0x00000001#32 State.issuePowMod)

/-- HEXDIGIT: issue (R77). The value follows at the completion step (R78, R97). -/
def execHexdigit (s : State) : Result := .next (s.issue 0x00000002#32 State.issueHexDigit)

/-- CLEAR (R74). -/
def execClear (s : State) : Result := .next (s.issue 0x00000003#32 State.clearErrors)

/-- An illegal word: it ends at once with ILLEGAL_COMMAND (R75). -/
def execIllegal (w : Word) (s : State) : Result := .next (s.issue w fun s => s.raiseError .illegalCommand)

end Sys2Proof.Machine
end

