-- ==== Sys2Proof/Machine/HostWrites.lean ====
section
/-! DEFINITION. The write transactions (40_host_access.md section 2). -/

namespace Sys2Proof.Machine

/-- WR.CMD (R64): IssueCommand, whose tests are those of R71 in its order. -/
def execWrCmd (v : Word) (s : State) : Result :=
  if cmdRsv v ≠ 0#28 ∨ 4 ≤ (cmdOp v).toNat then execIllegal v s
  else if cmdOp v = 0#4 then execNop s
  else if cmdOp v = 1#4 then execPowmod s
  else if cmdOp v = 2#4 then execHexdigit s
  else execClear s

/-- WR.STATUS: nothing changes, BUSYERR included (R65). -/
def execWrStatus (_v : Word) (s : State) : Result := .next s

/-- WR.ARG0 (R66). -/
def execWrArg0 (v : Word) (s : State) : Result := .next (s.guardedWrite fun s => { s with arg0 := v })

/-- WR.ARG1 (R67). -/
def execWrArg1 (v : Word) (s : State) : Result := .next (s.guardedWrite fun s => { s with arg1 := v })

/-- WR.ARG2 (R68). -/
def execWrArg2 (v : Word) (s : State) : Result := .next (s.guardedWrite fun s => { s with arg2 := v })

/-- WR.RESULT: nothing changes (R69). -/
def execWrResult (_v : Word) (s : State) : Result := .next s

/-- WR.RSV6: nothing changes (R70). -/
def execWrRsv6 (_v : Word) (s : State) : Result := .next s

/-- WR.RSV7: nothing changes (R70). -/
def execWrRsv7 (_v : Word) (s : State) : Result := .next s

end Sys2Proof.Machine
end

