-- ==== Sys2Proof/Machine/Dispatch.lean ====
section
/-! DEFINITION. exec: the meaning of every instruction, one arm each. -/

namespace Sys2Proof.Machine

def exec (i : Instr) (s : State) : Host.Outcome State Fault Refusal :=
  match i with
  | .rdCmd => Sys2Proof.Machine.execRdCmd s
  | .rdStatus => Sys2Proof.Machine.execRdStatus s
  | .rdArg0 => Sys2Proof.Machine.execRdArg0 s
  | .rdArg1 => Sys2Proof.Machine.execRdArg1 s
  | .rdArg2 => Sys2Proof.Machine.execRdArg2 s
  | .rdResult => Sys2Proof.Machine.execRdResult s
  | .rdRsv6 => Sys2Proof.Machine.execRdRsv6 s
  | .rdRsv7 => Sys2Proof.Machine.execRdRsv7 s
  | .wrCmd v => Sys2Proof.Machine.execWrCmd v s
  | .wrStatus v => Sys2Proof.Machine.execWrStatus v s
  | .wrArg0 v => Sys2Proof.Machine.execWrArg0 v s
  | .wrArg1 v => Sys2Proof.Machine.execWrArg1 v s
  | .wrArg2 v => Sys2Proof.Machine.execWrArg2 v s
  | .wrResult v => Sys2Proof.Machine.execWrResult v s
  | .wrRsv6 v => Sys2Proof.Machine.execWrRsv6 v s
  | .wrRsv7 v => Sys2Proof.Machine.execWrRsv7 v s
  | .nop => Sys2Proof.Machine.execNop s
  | .powmod => Sys2Proof.Machine.execPowmod s
  | .hexdigit => Sys2Proof.Machine.execHexdigit s
  | .clear => Sys2Proof.Machine.execClear s
  | .illegal w => Sys2Proof.Machine.execIllegal w s

end Sys2Proof.Machine
end

