-- ==== Sys2Proof/Machine/Float.lean ====
section
/-! DEFINITION. Floating-point arithmetic: IEEE 754, round to nearest, ties to even (R11, G1; log 12), for any binary
format. Every operation forms the exact result as a quotient of naturals and rounds it once. -/

namespace Sys2Proof.Machine

/-- The data that are values of the format: each value has exactly one. -/
def Fp.wf (f : FpFormat) : Fp → Bool
  | .nan => true
  | .inf _ => true
  | .fin _ sig exp =>
    sig < 2 ^ f.prec && f.qmin ≤ exp && exp ≤ f.qmax && (2 ^ (f.prec - 1) ≤ sig || exp == f.qmin)

/-- `num / den` rounded to an integer, to nearest, ties to even. -/
def roundDiv (num den : Nat) : Nat :=
  let q := num / den
  let r := num % den
  if 2 * r < den then q else if den < 2 * r then q + 1 else q + q % 2

/-- floor(log2(num / den)) for positive `num` and `den`. -/
def ratLog2 (num den : Nat) : Int :=
  let a := num.log2
  let b := den.log2
  if den * 2 ^ a ≤ num * 2 ^ b then (a : Int) - b else (a : Int) - b - 1

/-- The value of the format nearest to (-1)^neg * num / den, ties to even; an infinity past the largest finite value. -/
def roundRat (f : FpFormat) (neg : Bool) (num den : Nat) : Fp :=
  if num = 0 then .fin neg 0 f.qmin
  else
    let q := max (ratLog2 num den - ((f.prec : Int) - 1)) f.qmin
    let sig := roundDiv (num * 2 ^ (-q).toNat) (den * 2 ^ q.toNat)
    if sig = 2 ^ f.prec then
      if f.qmax < q + 1 then .inf neg else .fin neg (2 ^ (f.prec - 1)) (q + 1)
    else
      if f.qmax < q then .inf neg else .fin neg sig q

/-- (-1)^neg * (num / den) * 2^e, rounded. -/
def roundScaled (f : FpFormat) (neg : Bool) (num den : Nat) (e : Int) : Fp :=
  roundRat f neg (num * 2 ^ e.toNat) (den * 2 ^ (-e).toNat)

/-- A sign and a magnitude as an integer. -/
def signed (neg : Bool) (n : Nat) : Int := if neg then -(n : Int) else (n : Int)

/-- IEEE 754 addition. An exact sum of zero is +0, unless both operands have the negative sign. -/
def ieeeAdd (f : FpFormat) (a b : Fp) : Fp :=
  match a, b with
  | .nan, _ => .nan
  | _, .nan => .nan
  | .inf n, .inf n' => if n = n' then .inf n else .nan
  | .inf n, .fin _ _ _ => .inf n
  | .fin _ _ _, .inf n => .inf n
  | .fin n m e, .fin n' m' e' =>
    let q := min e e'
    let sum := signed n (m * 2 ^ (e - q).toNat) + signed n' (m' * 2 ^ (e' - q).toNat)
    if sum = 0 then .fin (n && n') 0 f.qmin else roundScaled f (decide (sum < 0)) sum.natAbs 1 q

/-- The operand with the other sign. -/
def Fp.negate : Fp → Fp
  | .nan => .nan
  | .inf n => .inf (!n)
  | .fin n m e => .fin (!n) m e

/-- IEEE 754 subtraction. -/
def ieeeSub (f : FpFormat) (a b : Fp) : Fp := ieeeAdd f a (Fp.negate b)

/-- IEEE 754 multiplication. -/
def ieeeMul (f : FpFormat) (a b : Fp) : Fp :=
  match a, b with
  | .nan, _ => .nan
  | _, .nan => .nan
  | .inf n, .inf n' => .inf (n != n')
  | .inf n, .fin n' m _ => if m = 0 then .nan else .inf (n != n')
  | .fin n m _, .inf n' => if m = 0 then .nan else .inf (n != n')
  | .fin n m e, .fin n' m' e' => roundScaled f (n != n') (m * m') 1 (e + e')

/-- IEEE 754 division. -/
def ieeeDiv (f : FpFormat) (a b : Fp) : Fp :=
  match a, b with
  | .nan, _ => .nan
  | _, .nan => .nan
  | .inf _, .inf _ => .nan
  | .inf n, .fin n' _ _ => .inf (n != n')
  | .fin n _ _, .inf n' => .fin (n != n') 0 f.qmin
  | .fin n m e, .fin n' m' e' =>
    if m' = 0 then (if m = 0 then .nan else .inf (n != n')) else roundScaled f (n != n') m m' (e - e')

/-- IEEE 754 roundToIntegralTowardNegative. -/
def ieeeFloor (f : FpFormat) : Fp → Fp
  | .nan => .nan
  | .inf n => .inf n
  | .fin n m e =>
    if 0 ≤ e then .fin n m e
    else
      let unit := 2 ^ (-e).toNat
      roundRat f n (if n then (m + (unit - 1)) / unit else m / unit) 1

/-- Conversion of a natural number. -/
def ieeeOfNat (f : FpFormat) (i : Nat) : Fp := roundRat f false i 1

/-- Conversion of an integer in [0, 15]; the spec gives no value for any other operand (log 13). -/
def ieeeToInt (a : Fp) : BitVec 4 :=
  match a with
  | .nan => Config.toIntUnstated a
  | .inf _ => Config.toIntUnstated a
  | .fin neg m e =>
    let num := m * 2 ^ e.toNat
    let unit := 2 ^ (-e).toNat
    if (neg = false ∨ m = 0) ∧ num % unit = 0 ∧ num / unit ≤ 15 then BitVec.ofNat 4 (num / unit)
    else Config.toIntUnstated a

/-- The operators BBPX is written in (R11). U5: the FP operations are a value a configuration gives. -/
structure FpOps where
  toF : Nat → Fp
  fadd : Fp → Fp → Fp
  fsub : Fp → Fp → Fp
  fmul : Fp → Fp → Fp
  fdiv : Fp → Fp → Fp
  ffloor : Fp → Fp
  toInt : Fp → BitVec 4

/-- The operators of a binary IEEE 754 format. -/
def ieeeOps (f : FpFormat) : FpOps where
  toF := ieeeOfNat f
  fadd := ieeeAdd f
  fsub := ieeeSub f
  fmul := ieeeMul f
  fdiv := ieeeDiv f
  ffloor := ieeeFloor f
  toInt := ieeeToInt

/-- CORE's operators: those of `Config.fp`. -/
def fpOps : FpOps := ieeeOps Config.fp

end Sys2Proof.Machine
end

