-- ==== Sys2Proof/Machine/Modexp.lean ====
section
/-! DEFINITION. MODEXP: modular exponentiation on the unit's registers (42_modexp.md). -/

namespace Sys2Proof.Machine

/-- `if e[0] == 1: r <- (zext_64(r) * zext_64(b)) mod modulus`, the product in the u64 register (R81). -/
def ModexpRegs.multiply (d : ModexpRegs) : ModexpRegs :=
  if d.e.getLsbD 0 then
    let p := d.r.setWidth 64 * d.b.setWidth 64
    { d with prod := p, r := (p % d.m.setWidth 64).setWidth 32 }
  else d

/-- `b <- (zext_64(b) * zext_64(b)) mod modulus` (R81). -/
def ModexpRegs.square (d : ModexpRegs) : ModexpRegs :=
  let p := d.b.setWidth 64 * d.b.setWidth 64
  { d with prod := p, b := (p % d.m.setWidth 64).setWidth 32 }

/-- `e <- e >> 1` (R81). -/
def ModexpRegs.shift (d : ModexpRegs) : ModexpRegs := { d with e := d.e >>> 1 }

/-- One iteration: the conditional multiply, then the square, then the shift (R81). -/
def ModexpRegs.iterate (d : ModexpRegs) : ModexpRegs := d.multiply.square.shift

/-- `while e != 0`, at most `fuel` iterations; 32 always suffice, since each halves the u32 `e` (R81). -/
def modexpLoop : Nat → ModexpRegs → ModexpRegs
  | 0, d => d
  | fuel + 1, d => if d.e = 0#32 then d else modexpLoop fuel d.iterate

/-- The registers as the loop finds them: `r <- 1; b <- base mod modulus; e <- exponent` (R81). -/
def modexpInit (base exponent modulus : Word) (d : ModexpRegs) : ModexpRegs :=
  { d with r := 1#32, b := base % modulus, e := exponent, m := modulus }

/-- One evaluation of ModExp (R81) from whatever the registers hold: the registers after it, and the value returned.
Modulus 1 is decided before the loop (R83); modulus 0 is outside the function's domain (R82, log 14). -/
def modexpRun (base exponent modulus : Word) (d : ModexpRegs) : ModexpRegs × Word :=
  if modulus = 0#32 then (d, Config.modExpByZero base exponent)
  else if modulus = 1#32 then ({ d with m := modulus }, 0#32)
  else
    let d' := modexpLoop 32 (modexpInit base exponent modulus d)
    (d', d'.r)

/-- ModExp(base, exponent, modulus) as a function of its operands (R81, R88). -/
def modExp (base exponent modulus : Word) : Word := (modexpRun base exponent modulus ModexpRegs.zero).2

end Sys2Proof.Machine
end

