-- ==== Sys2Proof/Machine/Bbpx.lean ====
section
/-! DEFINITION. BBPX: the digit of a BBP sum on the units' registers (43_bbp.md), over the FP operators of a
configuration. -/

namespace Sys2Proof.Machine

/-- `d(k) = 8k + C` for the k and C the registers hold (R90). -/
def BbpxRegs.denominator (b : BbpxRegs) : Nat := 8 * b.k + b.c.val

/-- One term of the finite part: `r <- ModExp(16, m - 1 - k, d); F <- fadd(F, fdiv(toF(r), toF(d)))`, and on to the
next k (R91). -/
def finiteTerm (o : FpOps) (m : Nat) (d : Datapath) : Datapath :=
  let den := d.bbpx.denominator
  let run := modexpRun 16#32 (BitVec.ofNat 32 (m - 1 - d.bbpx.k)) (BitVec.ofNat 32 den) d.modexp
  { modexp := run.1
    bbpx := { d.bbpx with
      f := o.fadd d.bbpx.f (o.fdiv (o.toF run.2.toNat) (o.toF den)), k := d.bbpx.k + 1 } }

/-- The given number of terms of the finite part. -/
def finiteLoop (o : FpOps) (m : Nat) : Nat → Datapath → Datapath
  | 0, d => d
  | n + 1, d => finiteLoop o m n (finiteTerm o m d)

/-- The finite part of a series sum: k = 0 to m - 1 from F = 0.0 (R91). -/
def finitePart (o : FpOps) (c : SeriesConst) (m : Nat) (d : Datapath) : Datapath :=
  finiteLoop o m m { d with bbpx := { d.bbpx with c := c, k := 0, f := o.toF 0 } }

/-- One term of the tail: `T <- fadd(T, fdiv(1.0, fmul(toF(16^j), toF(d))))` with j = k - m + 1, and on to the next k
(R92). -/
def tailTerm (o : FpOps) (m : Nat) (d : Datapath) : Datapath :=
  let j := d.bbpx.k - m + 1
  { d with bbpx := { d.bbpx with
      t := o.fadd d.bbpx.t (o.fdiv (o.toF 1) (o.fmul (o.toF (16 ^ j)) (o.toF d.bbpx.denominator))),
      k := d.bbpx.k + 1 } }

/-- The given number of terms of the tail. -/
def tailLoop (o : FpOps) (m : Nat) : Nat → Datapath → Datapath
  | 0, d => d
  | n + 1, d => tailLoop o m n (tailTerm o m d)

/-- The tail of a series sum: TAIL terms from k = m, from T = 0.0 (R92). -/
def tailPart (o : FpOps) (c : SeriesConst) (m : Nat) (d : Datapath) : Datapath :=
  tailLoop o m Config.tail { d with bbpx := { d.bbpx with c := c, k := m, t := o.toF 0 } }

/-- The registers after both parts of `SeriesSum(C, m)` (R93). -/
def seriesRun (o : FpOps) (c : SeriesConst) (m : Nat) (d : Datapath) : Datapath := tailPart o c m (finitePart o c m d)

/-- `fadd(F, T)` of what the registers hold (R93). -/
def seriesValue (o : FpOps) (d : Datapath) : Fp := o.fadd d.bbpx.f d.bbpx.t

/-- `S1 <- SeriesSum(1, m)` (R95). -/
def runS1 (o : FpOps) (m : Nat) (d : Datapath) : Datapath :=
  let d' := seriesRun o .c1 m d
  { d' with bbpx := { d'.bbpx with s1 := seriesValue o d' } }

/-- `S4 <- SeriesSum(4, m)` (R95). -/
def runS4 (o : FpOps) (m : Nat) (d : Datapath) : Datapath :=
  let d' := seriesRun o .c4 m d
  { d' with bbpx := { d'.bbpx with s4 := seriesValue o d' } }

/-- `S5 <- SeriesSum(5, m)` (R95). -/
def runS5 (o : FpOps) (m : Nat) (d : Datapath) : Datapath :=
  let d' := seriesRun o .c5 m d
  { d' with bbpx := { d'.bbpx with s5 := seriesValue o d' } }

/-- `S6 <- SeriesSum(6, m)` (R95). -/
def runS6 (o : FpOps) (m : Nat) (d : Datapath) : Datapath :=
  let d' := seriesRun o .c6 m d
  { d' with bbpx := { d'.bbpx with s6 := seriesValue o d' } }

/-- `raw <- fsub(fsub(fsub(fmul(4.0, S1), fmul(2.0, S4)), S5), S6)` (R95). -/
def combine (o : FpOps) (s1 s4 s5 s6 : Fp) : Fp :=
  o.fsub (o.fsub (o.fsub (o.fmul (o.toF 4) s1) (o.fmul (o.toF 2) s4)) s5) s6

/-- `x <- fadd(fsub(raw, ffloor(raw)), 1.0)` (R96). -/
def extractX (o : FpOps) (raw : Fp) : Fp := o.fadd (o.fsub raw (o.ffloor raw)) (o.toF 1)

/-- `y <- fsub(x, ffloor(x))` (R96). -/
def extractY (o : FpOps) (x : Fp) : Fp := o.fsub x (o.ffloor x)

/-- `digit <- toInt(ffloor(fmul(16.0, y)))` (R96). -/
def extractDigit (o : FpOps) (y : Fp) : BitVec 4 := o.toInt (o.ffloor (o.fmul (o.toF 16) y))

/-- The combination and the extraction, from what S1, S4, S5 and S6 hold (R95, R96). -/
def extractRun (o : FpOps) (d : Datapath) : Datapath :=
  let raw := combine o d.bbpx.s1 d.bbpx.s4 d.bbpx.s5 d.bbpx.s6
  let x := extractX o raw
  { d with bbpx := { d.bbpx with raw := raw, x := x, y := extractY o x } }

/-- One evaluation of HexDigitAt(n) (R97) from whatever the registers hold: the registers after it, and the digit.
The series are evaluated at m = n + 1 (R89). -/
def hexDigitRun (o : FpOps) (n : Word) (d : Datapath) : Datapath × BitVec 4 :=
  if Config.nMax < n.toNat then (d, Config.hexDigitBeyond n)
  else
    let m := n.toNat + 1
    let d' := extractRun o (runS6 o m (runS5 o m (runS4 o m (runS1 o m d))))
    (d', extractDigit o d'.bbpx.y)

/-- HexDigitAt(n) as a function of n (R97, R100), in CORE's own format. -/
def hexDigitAt (n : Word) : BitVec 4 :=
  (hexDigitRun fpOps n { modexp := ModexpRegs.zero, bbpx := BbpxRegs.zero }).2

end Sys2Proof.Machine
end

