-- ==== Sys2Proof/Machine/Engine.lean ====
section
/-! DEFINITION. The engine agent: the completion step (41_commands.md section 3). -/

namespace Sys2Proof.Machine

/-- The value a completion computes for PEND, from whatever the datapath registers hold (R78, R87, R97). -/
def completionRun (p : Pending) (d : Datapath) : Datapath × Word :=
  match p.op with
  | .powmod =>
    let run := modexpRun p.a0 p.a1 p.a2 d.modexp
    ({ d with modexp := run.1 }, run.2)
  | .hexdigit =>
    let run := hexDigitRun fpOps p.a0 d
    (run.1, run.2.setWidth 32)

/-- `Complete()` (R78), atomic. The datapath registers are not kept between commands (R32, U2; log 5). -/
def State.complete (s : State) (p : Pending) : State :=
  { s.freeDatapath with
    result := (completionRun p s.datapath).2, pend := none, status := s.status.complete }

/-- A turn of the engine: the completion step if a command is in flight, else nothing (R78; log 17). -/
def State.engineTurn (s : State) : State :=
  match s.pend with
  | none => s
  | some p => s.complete p

end Sys2Proof.Machine
end

