-- ==== Sys2Proof/Machine/Platform.lean ====
section
/-! DEFINITION. The window on a byte-addressed platform bus (20_memory.md R35 to R37). -/

namespace Sys2Proof.Machine

/-- Byte lane j of a word: bits [8j+7:8j] (R36). -/
def lane (w : Word) (j : Nat) : Byte := w.extractLsb' (8 * j) 8

/-- A word from its bytes, the first at the lowest address (R36). -/
def wordOfLanes : List Byte → Word
  | [] => 0
  | b :: bs => (wordOfLanes bs <<< 8) ||| b.setWidth 32

/-- The byte a platform sees at byte offset `off` (0 to 31) from CORE_BASE: lane `off mod 4` of the register at word
address `off / 4` (R35, R36). -/
def State.windowByte (s : State) (off : Nat) : Byte :=
  lane (s.readReg (Reg.ofAddr (BitVec.ofNat 3 (off / 4)))) (off % 4)

/-- What the ports hold for a transaction (R47). -/
def Pins.transaction (we : Bool) (addr : BitVec 3) (wdata : Word) : Pins :=
  { rst := false, sel := true, we := we, addr := addr, wdata := wdata }

/-- The word address of a platform access of `size` bytes at byte address `addr`, or why there is none (R35, R37, R40). -/
def windowAddr (addr size : Nat) : Except Refusal (BitVec 3) :=
  if size ≠ 4 then .error .notWholeWord
  else if addr < Config.coreBase ∨ Config.coreBase + 4 * Config.nReg ≤ addr then .error .outsideWindow
  else if (addr - Config.coreBase) % 4 ≠ 0 then .error .misaligned
  else .ok (BitVec.ofNat 3 ((addr - Config.coreBase) / 4))

/-- The transaction a platform access is at CORE's port, or why it is none. -/
def PlatformAccess.toPins : PlatformAccess → Except Refusal Pins
  | .read addr size =>
    match windowAddr addr size with
    | .ok a => .ok (Pins.transaction false a 0)
    | .error r => .error r
  | .write addr bytes =>
    match windowAddr addr bytes.length with
    | .ok a => .ok (Pins.transaction true a (wordOfLanes bytes))
    | .error r => .error r

end Sys2Proof.Machine
end

