-- ==== Sys2Proof/Machine/Turns.lean ====
section
/-! DEFINITION. One step of whichever agent the schedule names (R13, R42; log 1). -/

namespace Sys2Proof.Machine

/-- The transaction on the ports, as the 36-bit tuple of R47. -/
def Pins.code (p : Pins) : Code := .bus (packBus p.we p.addr p.wdata)

/-- A step of the ports: reset (R116), a transaction (R47), or neither (R47). Both at once is forbidden (R125; log 7). -/
def pinsTurn (p : Pins) (s : State) : Result :=
  if p.rst then
    if p.sel then .fault .transactionDuringReset else .next s.resetCore
  else if p.sel then exec (decode p.code) s
  else .next s

/-- A step of a given turn. -/
def takeTurn (t : Turn) (s : State) : Result :=
  match t with
  | .pins p => pinsTurn p s
  | .platform a =>
    match a.toPins with
    | .ok p => pinsTurn p s
    | .error r => .refused r
  | .engine => .next s.engineTurn

/-- The state as a step begins: the turn is taken off the schedule, and nothing has been returned yet (log 3). -/
def State.beginStep (s : State) (rest : List Turn) : State := { s with rdata := none, turns := rest }

/-- A step: the next turn of the schedule; when none is left, the engine's, so that a command in flight completes
(R79; log 1). -/
def runStep (s : State) : Result :=
  match s.turns with
  | [] => takeTurn .engine (s.beginStep [])
  | t :: rest => takeTurn t (s.beginStep rest)

/-- The ports for an encoded operation: a command word is presented by the write to CMD that carries it (R28, R49). -/
def Code.toPins : Code → Pins
  | .bus t => Pins.transaction (t.getLsbD 35) (t.extractLsb' 32 3) (busWdata t)
  | .cmd w => Pins.transaction true 0#3 w

/-- `s` with the operation numbered as the opcode table numbers it presented at the ports in the next step (log 2). -/
def State.present (s : State) (nbits w : Nat) : State :=
  match tableCode nbits w with
  | some c => { s with turns := .pins (Code.toPins c) :: s.turns }
  | none => s

end Sys2Proof.Machine
end

