-- ==== Sys2Proof/Machine/HostLines.lean ====
section
/-! DEFINITION. Host programs as they are written (30_encoding.md section 3, R53 to R56): lines, pseudo-instructions and
their expansions, the host's control flow, the listing form, and the refusal of what spells no transaction. CORE sees only the transactions
(log 20). -/

namespace Sys2Proof.Machine

/-- A value of a WR line: a number, or a command mnemonic standing for its word (R53). -/
inductive HostValue where
  | num (n : Nat)
  | mnemonic (name : String)
  deriving DecidableEq, Repr

/-- A label: one the program names, or the fresh one of the pseudo-instruction on a given line (R54). -/
inductive HostLabel where
  | named (name : String)
  | fresh (line : Nat)
  deriving DecidableEq, Repr

/-- A host predicate on the last value read: a bit is set (`BUSY` is bit 0), or clear (`!BUSY`) (R53). -/
inductive HostCond where
  | bitSet (i : Nat)
  | bitClear (i : Nat)
  deriving DecidableEq, Repr

/-- A line of a host program (R53), the pseudo-instructions of R54 among them. -/
inductive HostLine where
  | rd (reg : String)
  | wr (reg : String) (value : HostValue)
  | label (l : HostLabel)
  | br (c : HostCond) (l : HostLabel)
  | poll
  | powmod (b e m : HostValue)
  | hexdigit (n : HostValue)
  | clr
  deriving DecidableEq, Repr

/-- What a line is for the host: a transaction it presents, or control flow of its own, which presents none (R53). -/
inductive HostAct where
  | transaction (t : BitVec 36)
  | label (l : HostLabel)
  | br (c : HostCond) (l : HostLabel)
  deriving DecidableEq, Repr

/-- Why a transcriber refuses a line, by name (R56). -/
inductive HostRefusal where
  | unknownRegister (line : Nat) (name : String)
  | valueTooWide (line : Nat) (n : Nat)
  | unknownMnemonic (line : Nat) (name : String)
  deriving DecidableEq, Repr

/-- Whether a host predicate holds of the last value read (R53). -/
def HostCond.holds : HostCond → Word → Bool
  | .bitSet i, w => w.getLsbD i
  | .bitClear i, w => !w.getLsbD i

/-- The word address a register name stands for (R53). -/
def regAddr (line : Nat) (name : String) : Except HostRefusal (BitVec 3) :=
  if name = "CMD" then .ok 0
  else if name = "STATUS" then .ok 1
  else if name = "ARG0" then .ok 2
  else if name = "ARG1" then .ok 3
  else if name = "ARG2" then .ok 4
  else if name = "RESULT" then .ok 5
  else if name = "RSV6" then .ok 6
  else if name = "RSV7" then .ok 7
  else .error (.unknownRegister line name)

/-- The 32-bit word a value stands for (R53, R50). -/
def valueWord (line : Nat) : HostValue → Except HostRefusal Word
  | .num n => if n < 2 ^ 32 then .ok (BitVec.ofNat 32 n) else .error (.valueTooWide line n)
  | .mnemonic name =>
    if name = "NOP" then .ok 0
    else if name = "POWMOD" then .ok 1
    else if name = "HEXDIGIT" then .ok 2
    else if name = "CLEAR" then .ok 3
    else .error (.unknownMnemonic line name)

/-- `RD <reg>`: its transaction, `wdata` 0 (R53, R55). -/
def rdAct (line : Nat) (reg : String) : Except HostRefusal HostAct :=
  match regAddr line reg with
  | .ok a => .ok (.transaction (packBus false a 0))
  | .error r => .error r

/-- `WR <reg>, <value>`: its transaction (R53). Where both the register and the value are refused, the register is named;
the spec is silent on which (log 22, the model's choice). -/
def wrAct (line : Nat) (reg : String) (value : HostValue) : Except HostRefusal HostAct :=
  match regAddr line reg, valueWord line value with
  | .ok a, .ok w => .ok (.transaction (packBus true a w))
  | .error r, _ => .error r
  | _, .error r => .error r

/-- The lines a line stands for: itself, or a pseudo-instruction's expansion (R54). -/
def expandLine (line : Nat) : HostLine → List HostLine
  | .poll => [.label (.fresh line), .rd "STATUS", .br (.bitSet 0) (.fresh line)]
  | .powmod b e m =>
    [.wr "ARG0" b, .wr "ARG1" e, .wr "ARG2" m, .wr "CMD" (.mnemonic "POWMOD"),
     .label (.fresh line), .rd "STATUS", .br (.bitSet 0) (.fresh line), .rd "RESULT"]
  | .hexdigit n =>
    [.wr "ARG0" n, .wr "CMD" (.mnemonic "HEXDIGIT"),
     .label (.fresh line), .rd "STATUS", .br (.bitSet 0) (.fresh line), .rd "RESULT"]
  | .clr => [.wr "CMD" (.mnemonic "CLEAR")]
  | l => [l]

/-- What an expanded line is for the host. A pseudo-instruction, which an expansion never holds, has no single one. -/
def lineAct (line : Nat) : HostLine → List (Except HostRefusal HostAct)
  | .rd reg => [rdAct line reg]
  | .wr reg v => [wrAct line reg v]
  | .label l => [.ok (.label l)]
  | .br c l => [.ok (.br c l)]
  | .poll | .powmod _ _ _ | .hexdigit _ | .clr => []

/-- All of a list, or the first refusal in it (that it is the first: log 22). -/
def allOrRefusal {α : Type} : List (Except HostRefusal α) → Except HostRefusal (List α)
  | [] => .ok []
  | .error r :: _ => .error r
  | .ok a :: rest =>
    match allOrRefusal rest with
    | .ok as => .ok (a :: as)
    | .error r => .error r

/-- The transcription of a host program whose first line has the given number, or the first refusal (R56; that it is the
first, in the order of the lines: log 22). -/
def transcribe (line : Nat) : List HostLine → Except HostRefusal (List HostAct)
  | [] => .ok []
  | l :: rest =>
    match allOrRefusal ((expandLine line l).flatMap (lineAct line)), transcribe (line + 1) rest with
    | .ok as, .ok bs => .ok (as ++ bs)
    | .error r, _ => .error r
    | _, .error r => .error r

/-- The turn in which the host presents a transaction. -/
def busTurn (t : BitVec 36) : Turn := .pins (Code.toPins (.bus t))

/-- Where the host is in a transcribed program: the place of the next act, and the last value read (R53). -/
structure HostPos where
  next : Nat
  last : Word
  deriving DecidableEq, Repr

/-- The place of a label in a program whose first act has the given place. A label defined twice names its first place;
the spec is silent on that (log 21, the model's choice). -/
def labelAt (l : HostLabel) : List HostAct → Nat → Option Nat
  | [], _ => none
  | .label l' :: rest, n => if l' = l then some n else labelAt l rest (n + 1)
  | .transaction _ :: rest, n => labelAt l rest (n + 1)
  | .br _ _ :: rest, n => labelAt l rest (n + 1)

/-- The next transaction from a place, past labels and through branches, and the place after it (R53); none at the end of
the program, at a label it does not hold, and where its branches go round without a transaction (log 20). -/
def nextTransaction (prog : List HostAct) (last : Word) : Nat → Nat → Option (BitVec 36 × Nat)
  | 0, _ => none
  | fuel + 1, n =>
    match prog[n]? with
    | none => none
    | some (.transaction t) => some (t, n + 1)
    | some (.label _) => nextTransaction prog last fuel (n + 1)
    | some (.br c l) =>
      if c.holds last then
        match labelAt l prog 0 with
        | some place => nextTransaction prog last fuel place
        | none => none
      else nextTransaction prog last fuel (n + 1)

/-- The host presents its next transaction: CORE's step, and where the host is afterwards (R42, R53). -/
def hostStep (prog : List HostAct) (h : HostPos) (s : State) : Option (HostPos × Result) :=
  match nextTransaction prog h.last (prog.length + 1) h.next with
  | none => none
  | some (t, n) =>
    match step { s with turns := busTurn t :: s.turns } with
    | .next s' => some ({ next := n, last := s'.rdata.getD h.last }, .next s')
    | .fault r => some (h, .fault r)
    | .refused r => some (h, .refused r)

/-- A hexadecimal digit's character. -/
def hexChar (d : Nat) : Char := "0123456789ABCDEF".toList.getD d '?'

/-- The hexadecimal digits of the `n` low nibbles of a value, the most significant first. -/
def hexChars : Nat → Nat → List Char
  | 0, _ => []
  | n + 1, v => hexChars n (v / 16) ++ [hexChar (v % 16)]

/-- The listing form of a transaction: `ctl` as one hexadecimal digit, `wdata` as eight (R55). -/
def listing (t : BitVec 36) : String :=
  String.ofList (hexChars 1 (busCtl t).toNat ++ [' '] ++ hexChars 8 (busWdata t).toNat)

end Sys2Proof.Machine
end

