-- ==== Sys2Proof/Safety.lean ====
section
/-! DEFINITION. The terms claims about CORE are stated in: its invariant, the values of the rules as formulas, what the
host cannot see, and which schedules leave a command alone. -/

namespace Sys2Proof.Machine

/-- What every step keeps (R80, R18, R30): the legal values of STATUS, PEND exactly while BUSY, and an accepted command's
operands those of the registers and inside the function's domain. -/
structure Inv (s : State) : Prop where
  /-- `PEND != none` if and only if STATUS.BUSY = 1 (R80). -/
  busy_iff_pend : s.status.busy = s.pend.isSome
  /-- STATUS.BUSY = 1 implies STATUS.DONE = 0 (R80, R18). -/
  busy_not_done : s.status.busy = true → s.status.done = false
  /-- STATUS.BUSY = 1 implies STATUS.ERR = 0 (R80, R18). -/
  busy_no_err : s.status.busy = true → s.status.err = 0
  /-- ERR is 0, 1, 2 or 3 (R18, R21). -/
  err_legal : s.status.err.toNat ≤ 3
  /-- The captured arguments equal the registers while the command is in flight (R30). -/
  captured : ∀ p, s.pend = some p → p.a0 = s.arg0 ∧ p.a1 = s.arg1 ∧ p.a2 = s.arg2
  /-- A POWMOD in flight has a modulus of at least 1 (R76, R82). -/
  powmod_accepted : ∀ p, s.pend = some p → p.op = .powmod → p.a2 ≠ 0 ∧ s.cmd = 1
  /-- A HEXDIGIT in flight has an index of at most N_MAX (R77). -/
  hexdigit_accepted : ∀ p, s.pend = some p → p.op = .hexdigit → p.a0.toNat ≤ Config.nMax ∧ s.cmd = 2

/-- Everything of a state but the hidden registers of the two units and the counter of their free values (R31, R32). -/
def State.visible (s : State) : State :=
  { s with datapath := { modexp := ModexpRegs.zero, bbpx := BbpxRegs.zero }, freeCtr := 0 }

/-- Two outcomes the host cannot tell apart. -/
def sameOutcome : Result → Result → Prop
  | .next s, .next t => s.visible = t.visible
  | .fault r, .fault r' => r = r'
  | .refused r, .refused r' => r = r'
  | _, _ => False

/-- The value a completion writes to RESULT (R78): base^exponent mod modulus (R86, R87), or the digit, zero-extended
(R97). -/
def completionValue (p : Pending) : Word :=
  match p.op with
  | .powmod => BitVec.ofNat 32 (p.a0.toNat ^ p.a1.toNat % p.a2.toNat)
  | .hexdigit => (hexDigitAt p.a0).setWidth 32

/-- A turn of the host (a transaction or none) at the ports themselves. -/
def Turn.isHost : Turn → Bool
  | .pins p => !p.rst
  | .platform _ => false
  | .engine => false

/-- A turn of the host at the ports, or of the engine. -/
def Turn.isQuiet : Turn → Bool
  | .pins p => !p.rst
  | .platform _ => false
  | .engine => true

/-- A turn that resets CORE (R116). -/
def Turn.isReset : Turn → Bool
  | .pins p => p.rst && !p.sel
  | .platform _ => false
  | .engine => false

/-- The operation that what the ports hold presents, if any (R47; none in a step of reset, R125). -/
def Pins.operation (p : Pins) : Option Instr :=
  if p.rst = false ∧ p.sel = true then some (decode p.code) else none

/-- The operation a turn presents at the ports, if any: the host's, there or by way of a platform bus (R35). -/
def Turn.operation : Turn → Option Instr
  | .pins p => p.operation
  | .platform a =>
    match a.toPins with
    | .ok p => p.operation
    | .error _ => none
  | .engine => none

/-- `k` steps of the machine, stopping at the first that answers no next state. -/
def runSteps (k : Nat) (s : State) : Result := Host.Core.run Sys2Proof.core k s

/-- The read transactions (R57 to R63). -/
def isRead : Instr → Bool
  | .rdCmd | .rdStatus | .rdArg0 | .rdArg1 | .rdArg2 | .rdResult | .rdRsv6 | .rdRsv7 => true
  | .wrCmd _ | .wrStatus _ | .wrArg0 _ | .wrArg1 _ | .wrArg2 _ | .wrResult _ | .wrRsv6 _ | .wrRsv7 _ => false
  | .nop | .powmod | .hexdigit | .clear | .illegal _ => false

/-- The writes to CMD: the transaction, and each command word as the write that carries it. -/
def isCmdWrite : Instr → Bool
  | .rdCmd | .rdStatus | .rdArg0 | .rdArg1 | .rdArg2 | .rdResult | .rdRsv6 | .rdRsv7 => false
  | .wrStatus _ | .wrArg0 _ | .wrArg1 _ | .wrArg2 _ | .wrResult _ | .wrRsv6 _ | .wrRsv7 _ => false
  | .wrCmd _ | .nop | .powmod | .hexdigit | .clear | .illegal _ => true

/-- The writes to ARG0, ARG1 and ARG2. -/
def isArgWrite : Instr → Bool
  | .rdCmd | .rdStatus | .rdArg0 | .rdArg1 | .rdArg2 | .rdResult | .rdRsv6 | .rdRsv7 => false
  | .wrArg0 _ | .wrArg1 _ | .wrArg2 _ => true
  | .wrCmd _ | .wrStatus _ | .wrResult _ | .wrRsv6 _ | .wrRsv7 _ => false
  | .nop | .powmod | .hexdigit | .clear | .illegal _ => false

/-- The ports hold a write of `v` to word address `a`. -/
def writeTurn (a : BitVec 3) (v : Word) : Turn := .pins (Pins.transaction true a v)

/-- The ports hold `rst` and no transaction. -/
def resetPins (we : Bool) (addr : BitVec 3) (wdata : Word) : Pins :=
  { rst := true, sel := false, we := we, addr := addr, wdata := wdata }

/-- The state in which the next step is the given turn. -/
def State.facing (s : State) (t : Turn) : State := { s with turns := t :: s.turns }

/-! ### The values of 43_bbp.md as formulas, without registers -/

/-- The finite part of rule R91, its numerators as mathematical residues. -/
def finiteFormula (c m : Nat) : Fp :=
  (List.range m).foldl
    (fun acc k => fpOps.fadd acc
      (fpOps.fdiv (fpOps.toF (16 ^ (m - 1 - k) % (8 * k + c))) (fpOps.toF (8 * k + c)))) (fpOps.toF 0)

/-- The tail of rule R92: the terms k = m + i, i = 0 to 4, so j = i + 1. -/
def tailFormula (c m : Nat) : Fp :=
  (List.range 5).foldl
    (fun acc i => fpOps.fadd acc
      (fpOps.fdiv (fpOps.toF 1) (fpOps.fmul (fpOps.toF (16 ^ (i + 1))) (fpOps.toF (8 * (m + i) + c))))) (fpOps.toF 0)

/-- SeriesSum(C, m) (R93). -/
def seriesFormula (c m : Nat) : Fp := fpOps.fadd (finiteFormula c m) (tailFormula c m)

/-- `raw` at series index m (R95). -/
def rawFormula (m : Nat) : Fp :=
  fpOps.fsub (fpOps.fsub (fpOps.fsub (fpOps.fmul (fpOps.toF 4) (seriesFormula 1 m))
    (fpOps.fmul (fpOps.toF 2) (seriesFormula 4 m))) (seriesFormula 5 m)) (seriesFormula 6 m)

/-- The digit of a value of `raw` (R96). -/
def digitOfRaw (raw : Fp) : BitVec 4 := extractDigit fpOps (extractY fpOps (extractX fpOps raw))

/-! ### The numbers floating-point data stand for -/

/-- A finite datum of `FP`. -/
def Fp.finite : Fp → Bool
  | .nan => false
  | .inf _ => false
  | .fin n m e => Fp.wf Config.fp (.fin n m e)

/-- The number a finite datum stands for. -/
def Fp.val : Fp → ℚ
  | .nan => 0
  | .inf _ => 0
  | .fin n m e => (if n then -1 else 1) * m * 2 ^ e

/-- The significand's last bit is 0. -/
def Fp.even : Fp → Bool
  | .nan => false
  | .inf _ => false
  | .fin _ m _ => m % 2 == 0

/-- `r` is the finite value of `FP` nearest to `x`, the even one of two that are equally near (R11, G1). -/
def RoundsTo (x : ℚ) (r : Fp) : Prop :=
  Fp.finite r = true ∧
  ∀ c, Fp.finite c = true → |Fp.val r - x| ≤ |Fp.val c - x| ∧
    (|Fp.val r - x| = |Fp.val c - x| → Fp.val c = Fp.val r ∨ Fp.even r = true)

/-- The largest finite number of binary64. -/
def fpMax : ℚ := (2 ^ 53 - 1) * 2 ^ 971

end Sys2Proof.Machine
end

