-- ==== Sys2Proof/Certificates/Slice0/Obligations.lean ====
section
/-! DEFINITION. The statements about CORE, each named by what it states; OBLIGATIONS.json lists them. -/

open Sys2Proof Sys2Proof.Machine

/-! ### Encoding (30_encoding.md) -/

/-- Words written out from R47, R48 and R50 decode to what they stand for. -/
def Obligations.WrittenOutWordsDecode : Prop :=
  decode (.bus 0b000000000000000000000000000000000000#36) = .rdCmd ∧
  decode (.bus 0b010100000000000000000000000000000000#36) = .rdResult ∧
  decode (.bus 0b101000000000000000000000000000010000#36) = .wrArg0 16 ∧
  decode (.bus 0b100000000000000000000000000000000001#36) = .wrCmd 1 ∧
  decode (.cmd 0b00000000000000000000000000000001#32) = .powmod ∧
  decode (.cmd 0b00000000000000000000000000000010#32) = .hexdigit ∧
  decode (.cmd 0b00000000000000000000000000000011#32) = .clear ∧
  decode (.cmd 0b10000000000000000000000000000001#32) = .illegal 0x80000001

/-- Decoding the encoding of a well-formed instruction gives it back, with every operand. -/
def Obligations.DecodeInvertsEncode : Prop :=
  ∀ i : Instr, i.wf = true → decode (encode i) = i

/-- Encoding what a code decodes to gives the code back, where the ignored `wdata` of a read is 0 (R55). -/
def Obligations.EncodeInvertsDecode : Prop :=
  ∀ c : Code, c.canonical = true → encode (decode c) = c ∧ (decode c).wf = true

/-- R48 and R47: each of the sixteen values of ctl is its own operation, whatever wdata is; none is illegal. -/
def Obligations.EveryCtlDecodesToItsTransaction : Prop :=
  ∀ v : Word,
    decode (.bus (0x0#4 ++ v)) = .rdCmd ∧ decode (.bus (0x1#4 ++ v)) = .rdStatus ∧
    decode (.bus (0x2#4 ++ v)) = .rdArg0 ∧ decode (.bus (0x3#4 ++ v)) = .rdArg1 ∧
    decode (.bus (0x4#4 ++ v)) = .rdArg2 ∧ decode (.bus (0x5#4 ++ v)) = .rdResult ∧
    decode (.bus (0x6#4 ++ v)) = .rdRsv6 ∧ decode (.bus (0x7#4 ++ v)) = .rdRsv7 ∧
    decode (.bus (0x8#4 ++ v)) = .wrCmd v ∧ decode (.bus (0x9#4 ++ v)) = .wrStatus v ∧
    decode (.bus (0xA#4 ++ v)) = .wrArg0 v ∧ decode (.bus (0xB#4 ++ v)) = .wrArg1 v ∧
    decode (.bus (0xC#4 ++ v)) = .wrArg2 v ∧ decode (.bus (0xD#4 ++ v)) = .wrResult v ∧
    decode (.bus (0xE#4 ++ v)) = .wrRsv6 v ∧ decode (.bus (0xF#4 ++ v)) = .wrRsv7 v

/-- R51: a command word is illegal exactly when RSV is not 0 or OP is in 4 to 15, and writing one to CMD while idle ends
at once with ILLEGAL_COMMAND. -/
def Obligations.IllegalWordsAreThoseOfRsvOrOp : Prop :=
  ∀ w : Word,
    (decode (.cmd w) = .illegal w ↔ cmdRsv w ≠ 0 ∨ 4 ≤ (cmdOp w).toNat) ∧
    ∀ s : State, s.status.busy = false → (cmdRsv w ≠ 0 ∨ 4 ≤ (cmdOp w).toNat) →
      exec (.wrCmd w) s = .next { s with cmd := w, status := { s.status with done := true, err := 2 } }

/-- R28, R50: a write to CMD runs exactly the command its word decodes to: the field tests of R71 and the exact match of
R50 agree on every word. -/
def Obligations.CommandWriteRunsItsDecodedWord : Prop :=
  ∀ (v : Word) (s : State), exec (.wrCmd v) s = exec (decode (.cmd v)) s

/-! ### A step -/

/-- R13, R47: a step that finds a transaction at the ports runs the decoded operation on the state as the step begins
(that turn taken off the schedule, nothing returned yet: log 1, 3). -/
def Obligations.StepRunsTheDecodedTransaction : Prop :=
  ∀ (s : State) (we : Bool) (addr : BitVec 3) (v : Word),
    step (s.facing (.pins (Pins.transaction we addr v))) =
      exec (decode (.bus ((BitVec.ofBool we ++ addr) ++ v))) { s with rdata := none }

/-- R47: with `sel` = 0 (and no reset) there is no transaction, so nothing changes (log 17: that the step still counts). -/
def Obligations.StepWithoutSelectChangesNothing : Prop :=
  ∀ (s : State) (we : Bool) (addr : BitVec 3) (v : Word),
    step (s.facing (.pins { rst := false, sel := false, we := we, addr := addr, wdata := v })) =
      .next { s with rdata := none }

/-- R41, R111: every operation is permitted in every state: it is performed and a next state follows. -/
def Obligations.EveryOperationCompletes : Prop :=
  ∀ (i : Instr) (s : State), ∃ t, exec i s = .next t

/-! ### Reads (40_host_access.md section 1) -/

/-- R57: RD.CMD (ctl 0x0) returns the last word a write to CMD left there while idle, illegal or not; a dropped write is not
reflected; nothing but a write to CMD changes it; after reset it is 0. -/
def Obligations.ReadCmdReturnsTheLastAcceptedWord : Prop :=
  (∀ w : Word, decode (.bus (0x0#4 ++ w)) = .rdCmd) ∧
  (∀ s : State, exec .rdCmd s = .next { s with rdata := some s.cmd }) ∧
  (∀ (s : State) (v : Word), ∃ t, exec (.wrCmd v) s = .next t ∧ t.cmd = if s.status.busy then s.cmd else v) ∧
  (∀ (s : State) (i : Instr), isCmdWrite i = false → ∃ t, exec i s = .next t ∧ t.cmd = s.cmd) ∧
  (∀ s : State, s.engineTurn.cmd = s.cmd) ∧
  exec .rdCmd State.reset = .next { State.reset with rdata := some 0x00000000 }

/-- R58: RD.STATUS (ctl 0x1) returns the four fields in their places and 0 elsewhere, clears nothing, and read twice returns the
same. After a POWMOD with ARG2 = 0 from an idle state with BUSYERR = 0 it returns 0x12. -/
def Obligations.ReadStatusReturnsItsFields : Prop :=
  (∀ w : Word, decode (.bus (0x1#4 ++ w)) = .rdStatus) ∧
  (∀ s : State, exec .rdStatus s = .next { s with
    rdata := some (0#23 ++ BitVec.ofBool s.status.busyErr ++ s.status.err ++ 0b00#2 ++ BitVec.ofBool s.status.done ++
      BitVec.ofBool s.status.busy) }) ∧
  (∀ s t : State, exec .rdStatus s = .next t → exec .rdStatus t = .next t) ∧
  (∀ s : State, s.status.busy = false → s.status.busyErr = false → s.arg2 = 0 →
    ∃ t, exec .powmod s = .next t ∧ exec .rdStatus t = .next { t with rdata := some 0x00000012 })

/-- R59, R60, R61: RD.ARG0, RD.ARG1 and RD.ARG2 (ctl 0x2, 0x3, 0x4) return the last write that was not dropped; no command, no completion and
no other operation changes an argument; after reset they are 0. -/
def Obligations.ReadArgumentsReturnTheLastKeptWrite : Prop :=
  (∀ w : Word, decode (.bus (0x2#4 ++ w)) = .rdArg0 ∧ decode (.bus (0x3#4 ++ w)) = .rdArg1 ∧
    decode (.bus (0x4#4 ++ w)) = .rdArg2) ∧
  (∀ s : State, exec .rdArg0 s = .next { s with rdata := some s.arg0 } ∧
    exec .rdArg1 s = .next { s with rdata := some s.arg1 } ∧
    exec .rdArg2 s = .next { s with rdata := some s.arg2 }) ∧
  (∀ (s : State) (v : Word), s.status.busy = false →
    (∃ t, exec (.wrArg0 v) s = .next t ∧ exec .rdArg0 t = .next { t with rdata := some v }) ∧
    (∃ t, exec (.wrArg1 v) s = .next t ∧ exec .rdArg1 t = .next { t with rdata := some v }) ∧
    (∃ t, exec (.wrArg2 v) s = .next t ∧ exec .rdArg2 t = .next { t with rdata := some v })) ∧
  (∀ (s : State) (i : Instr), (isArgWrite i = false ∨ s.status.busy = true) →
    ∃ t, exec i s = .next t ∧ t.arg0 = s.arg0 ∧ t.arg1 = s.arg1 ∧ t.arg2 = s.arg2) ∧
  (∀ s : State, s.engineTurn.arg0 = s.arg0 ∧ s.engineTurn.arg1 = s.arg1 ∧ s.engineTurn.arg2 = s.arg2) ∧
  State.reset.arg0 = 0x00000000 ∧ State.reset.arg1 = 0x00000000 ∧ State.reset.arg2 = 0x00000000

/-- R62: RD.RESULT (ctl 0x5) returns the value of the last completion: no operation of the host changes RESULT, while busy and
after an error included; a HEXDIGIT completion leaves a value in 0 to 15; POWMOD(16, 5, 17) leaves 16. -/
def Obligations.ReadResultReturnsTheLastCompletion : Prop :=
  (∀ w : Word, decode (.bus (0x5#4 ++ w)) = .rdResult) ∧
  (∀ s : State, exec .rdResult s = .next { s with rdata := some s.result }) ∧
  (∀ (s : State) (i : Instr), ∃ t, exec i s = .next t ∧ t.result = s.result) ∧
  State.reset.result = 0 ∧
  (∀ (s : State) (p : Pending), s.pend = some p → p.op = .hexdigit → s.engineTurn.result.toNat ≤ 15) ∧
  (∀ s : State, s.pend = some { op := .powmod, a0 := 16, a1 := 5, a2 := 17 } →
    exec .rdResult s.engineTurn = .next { s.engineTurn with rdata := some 0x00000010 })

/-- R63: RD.RSV6 and RD.RSV7 (ctl 0x6, 0x7) return 0 whatever was written there. -/
def Obligations.ReservedReadsReturnZero : Prop :=
  ∀ (s : State) (v : Word),
    decode (.bus (0x6#4 ++ v)) = .rdRsv6 ∧ decode (.bus (0x7#4 ++ v)) = .rdRsv7 ∧
    exec .rdRsv6 s = .next { s with rdata := some 0x00000000 } ∧
    exec .rdRsv7 s = .next { s with rdata := some 0x00000000 } ∧
    (∃ t, exec (.wrRsv6 v) s = .next t ∧ exec .rdRsv6 t = .next { t with rdata := some 0x00000000 }) ∧
    (∃ t, exec (.wrRsv7 v) s = .next t ∧ exec .rdRsv7 t = .next { t with rdata := some 0x00000000 })

/-- R39: a read has no side effect, and repeated it returns the same. -/
def Obligations.ReadsHaveNoSideEffect : Prop :=
  ∀ (i : Instr) (s : State), isRead i = true →
    ∃ v, exec i s = .next { s with rdata := some v } ∧
      exec i { s with rdata := some v } = .next { s with rdata := some v }

/-! ### Writes (40_host_access.md section 2) -/

/-- R65, R69, R70: a write to STATUS, RESULT or a reserved address changes nothing, BUSYERR included, busy or not. -/
def Obligations.IgnoredWritesChangeNothing : Prop :=
  ∀ (s : State) (v : Word),
    decode (.bus (0x9#4 ++ v)) = .wrStatus v ∧ decode (.bus (0xD#4 ++ v)) = .wrResult v ∧
    decode (.bus (0xE#4 ++ v)) = .wrRsv6 v ∧ decode (.bus (0xF#4 ++ v)) = .wrRsv7 v ∧
    exec (.wrStatus v) s = .next s ∧ exec (.wrResult v) s = .next s ∧
    exec (.wrRsv6 v) s = .next s ∧ exec (.wrRsv7 v) s = .next s

/-- R66, R67, R68: a write to an argument register is kept, whatever the value, or while BUSY = 1 dropped with BUSYERR
set; nothing else changes. -/
def Obligations.ArgumentWritesAreKeptOrDropped : Prop :=
  ∀ (s : State) (v : Word),
    decode (.bus (0xA#4 ++ v)) = .wrArg0 v ∧ decode (.bus (0xB#4 ++ v)) = .wrArg1 v ∧
    decode (.bus (0xC#4 ++ v)) = .wrArg2 v ∧
    (exec (.wrArg0 v) s = .next (if s.status.busy = true then { s with status := { s.status with busyErr := true } }
      else { s with arg0 := v })) ∧
    (exec (.wrArg1 v) s = .next (if s.status.busy = true then { s with status := { s.status with busyErr := true } }
      else { s with arg1 := v })) ∧
    (exec (.wrArg2 v) s = .next (if s.status.busy = true then { s with status := { s.status with busyErr := true } }
      else { s with arg2 := v }))

/-- R71, R72: a write to CMD is dropped while BUSY = 1 (only BUSYERR changes); otherwise CMD holds the word, and then the
word's own effect follows, tested in the order illegal word, opcode, argument. And no operation of the host cancels a
command in flight. -/
def Obligations.CmdWriteIssuesItsCommand : Prop :=
  (∀ v : Word, decode (.bus (0x8#4 ++ v)) = .wrCmd v) ∧
  (∀ (s : State) (v : Word), exec (.wrCmd v) s = .next (
    if s.status.busy = true then { s with status := { s.status with busyErr := true } }
    else if v.extractLsb' 4 28 ≠ 0 ∨ 4 ≤ (v.extractLsb' 0 4).toNat then
      { s with cmd := v, status := { s.status with done := true, err := 2 } }
    else if v.extractLsb' 0 4 = 0 then { s with cmd := v }
    else if v.extractLsb' 0 4 = 1 then
      if s.arg2 = 0 then { s with cmd := v, status := { s.status with done := true, err := 1 } }
      else { s with cmd := v, pend := some { op := .powmod, a0 := s.arg0, a1 := s.arg1, a2 := s.arg2 },
                    status := { s.status with busy := true, done := false, err := 0 } }
    else if v.extractLsb' 0 4 = 2 then
      if 0x1FFFFFFF < s.arg0.toNat then { s with cmd := v, status := { s.status with done := true, err := 3 } }
      else { s with cmd := v, pend := some { op := .hexdigit, a0 := s.arg0, a1 := s.arg1, a2 := s.arg2 },
                    status := { s.status with busy := true, done := false, err := 0 } }
    else { s with cmd := v, status := { s.status with done := false, err := 0, busyErr := false } })) ∧
  (∀ (i : Instr) (s : State), s.status.busy = true → ∃ t, exec i s = .next t ∧ t.pend = s.pend ∧ t.status.busy = true)

/-- R105: a write to CMD (whatever its word), ARG0, ARG1 or ARG2 while BUSY = 1 sets BUSYERR and changes nothing else:
not DONE, not ERR, not the command in flight. -/
def Obligations.WritesWhileBusyAreDropped : Prop :=
  ∀ (i : Instr) (s : State), s.status.busy = true → (isCmdWrite i = true ∨ isArgWrite i = true) →
    exec i s = .next { s with status := { s.status with busyErr := true } }

/-! ### Commands (41_commands.md section 2) -/

/-- R73: NOP writes CMD and nothing else; while busy it is dropped. -/
def Obligations.NopChangesOnlyCmd : Prop :=
  decode (.cmd 0x00000000) = .nop ∧ ∀ s : State,
    exec (.wrCmd 0x00000000) s = exec .nop s ∧
    (s.status.busy = false → exec .nop s = .next { s with cmd := 0x00000000 }) ∧
    (s.status.busy = true → exec .nop s = .next { s with status := { s.status with busyErr := true } })

/-- R74: CLEAR sets DONE, ERR and BUSYERR to 0, and nothing else but CMD changes; while busy it is dropped and BUSYERR is
set, so it cannot clear one it raised. -/
def Obligations.ClearClearsDoneErrAndBusyErr : Prop :=
  decode (.cmd 0x00000003) = .clear ∧ ∀ s : State,
    exec (.wrCmd 0x00000003) s = exec .clear s ∧
    (s.status.busy = false → exec .clear s = .next
      { s with cmd := 0x00000003, status := { s.status with done := false, err := 0, busyErr := false } }) ∧
    (s.status.busy = true → exec .clear s = .next { s with status := { s.status with busyErr := true } })

/-- R75: an illegal word written while idle stays in CMD, and DONE becomes 1 and ERR 2; nothing else changes (while busy
it is dropped like any word). -/
def Obligations.IllegalWordEndsWithIllegalCommand : Prop :=
  ∀ (s : State) (w : Word), w.extractLsb' 4 28 ≠ 0 ∨ 4 ≤ (w.extractLsb' 0 4).toNat →
    decode (.cmd w) = .illegal w ∧ (Instr.illegal w).wf = true ∧
    (s.status.busy = false → exec (.illegal w) s = .next
      { s with cmd := w, status := { s.status with done := true, err := 2 } }) ∧
    (s.status.busy = true → exec (.illegal w) s = .next { s with status := { s.status with busyErr := true } }) ∧
    exec (.wrCmd w) s = exec (.illegal w) s

/-- R76: POWMOD, issued while idle, is accepted with the three arguments captured, whatever they are, but for ARG2 = 0,
which ends it with INVALID_ARGUMENT; nothing else changes. ARG2 = 1 completes with 0, and (16, 5, 17) with 16. -/
def Obligations.PowmodIssueChecksTheModulus : Prop :=
  decode (.cmd 0x00000001) = .powmod ∧
  (∀ s : State, s.status.busy = false →
    exec (.wrCmd 0x00000001) s = exec .powmod s ∧
    (s.arg2 = 0 → exec .powmod s = .next
      { s with cmd := 0x00000001, status := { s.status with done := true, err := 1 } }) ∧
    (s.arg2 ≠ 0 → exec .powmod s = .next
      { s with cmd := 0x00000001, pend := some { op := .powmod, a0 := s.arg0, a1 := s.arg1, a2 := s.arg2 },
               status := { s.status with busy := true, done := false, err := 0 } })) ∧
  (∀ (s : State) (a0 a1 : Word), s.pend = some { op := .powmod, a0 := a0, a1 := a1, a2 := 1 } →
    s.engineTurn.result = 0) ∧
  (∀ s : State, s.pend = some { op := .powmod, a0 := 16, a1 := 5, a2 := 17 } →
    s.engineTurn.result = 16 ∧ s.engineTurn.status = { s.status with busy := false, done := true })

/-- R77: HEXDIGIT, issued while idle, is accepted for every index up to N_MAX = 0x1FFFFFFF, and ends with INDEX_RANGE
above it; nothing else changes. Index 0 completes with 2 and index 3 with 15, whatever ARG1 and ARG2 are. -/
def Obligations.HexdigitIssueChecksTheIndex : Prop :=
  decode (.cmd 0x00000002) = .hexdigit ∧
  (∀ s : State, s.status.busy = false →
    exec (.wrCmd 0x00000002) s = exec .hexdigit s ∧
    (0x1FFFFFFF < s.arg0.toNat → exec .hexdigit s = .next
      { s with cmd := 0x00000002, status := { s.status with done := true, err := 3 } }) ∧
    (s.arg0.toNat ≤ 0x1FFFFFFF → exec .hexdigit s = .next
      { s with cmd := 0x00000002, pend := some { op := .hexdigit, a0 := s.arg0, a1 := s.arg1, a2 := s.arg2 },
               status := { s.status with busy := true, done := false, err := 0 } })) ∧
  (∀ (s : State) (a1 a2 : Word), s.pend = some { op := .hexdigit, a0 := 0, a1 := a1, a2 := a2 } →
    s.engineTurn.result = 2) ∧
  (∀ (s : State) (a1 a2 : Word), s.pend = some { op := .hexdigit, a0 := 3, a1 := a1, a2 := a2 } →
    s.engineTurn.result = 15)

/-- R108, R107, R101: an error at issue leaves the state as it was before the write but for CMD, DONE and ERR, with the
code of the one cause that comes first: illegal word 2, then modulus 0 of POWMOD 1, or index above N_MAX of HEXDIGIT 3. -/
def Obligations.ErrorsAreRecordedPrecisely : Prop :=
  ∀ (s : State) (v : Word) (code : BitVec 4), s.status.busy = false →
    ((code = 2 ∧ 3 < v.toNat) ∨ (code = 1 ∧ v = 1 ∧ s.arg2 = 0) ∨ (code = 3 ∧ v = 2 ∧ 0x1FFFFFFF < s.arg0.toNat)) →
    exec (.wrCmd v) s = .next { s with cmd := v, status := { s.status with done := true, err := code } }

/-! ### The engine (41_commands.md section 3) -/

/-- R78: the completion step, with a command in flight: RESULT gets the command's value, PEND becomes none, BUSY 0 and
DONE 1; ERR, BUSYERR and every other register keep their values (the hidden datapath registers apart, log 5). With none in
flight the engine changes nothing (log 17). -/
def Obligations.CompletionWritesResultAndStatus : Prop :=
  (∀ (s : State) (p : Pending), Inv s → s.pend = some p →
    ∃ (d : Datapath) (n : Nat), step (s.facing .engine) = .next { s with
      result := completionValue p, pend := none, status := { s.status with busy := false, done := true },
      rdata := none, datapath := d, freeCtr := n }) ∧
  (∀ s : State, s.pend = none → step (s.facing .engine) = .next { s with rdata := none })

/-- R43, R45, R79: a completion may fall after any number of host steps, whatever they are: until it does, the command
stays in flight and RESULT keeps its old value; when it does, RESULT is the value of the arguments captured at
acceptance. -/
def Obligations.CompletionMayFallAfterAnyHostSteps : Prop :=
  ∀ (s : State) (p : Pending) (hosts rest : List Turn), Inv s → s.pend = some p →
    s.turns = hosts ++ .engine :: rest → (∀ t ∈ hosts, t.isHost = true) →
    (∃ s₁, runSteps hosts.length s = .next s₁ ∧ s₁.pend = some p ∧ s₁.result = s.result) ∧
    (∃ s₂, runSteps (hosts.length + 1) s = .next s₂ ∧ s₂.pend = none ∧
      s₂.result = completionValue p ∧ s₂.turns = rest)

/-- R79: an accepted command completes after finitely many steps, whatever the schedule of transactions and resets,
unless reset comes first (in the model: at most one more than the schedule holds, log 1). -/
def Obligations.AcceptedCommandCompletesUnlessReset : Prop :=
  ∀ (s : State) (p : Pending), Inv s → s.pend = some p →
    (∀ t ∈ s.turns, t.isQuiet = true ∨ t.isReset = true) →
    ∃ k s', k ≤ s.turns.length + 1 ∧ runSteps k s = .next s' ∧ s'.pend = none ∧
      ((s'.result = completionValue p ∧ s'.status.busy = false ∧ s'.status.done = true) ∨
       ((∃ t ∈ s.turns, t.isReset = true) ∧ s'.visible = { State.reset with turns := s'.turns }))

/-! ### MODEXP (42_modexp.md) -/

/-- R86, R85, R83: ModExp is base^exponent mod modulus on mathematical integers, with 0^0 = 1, so it is below modulus. -/
def Obligations.ModExpIsTheMathematicalPower : Prop :=
  ∀ base exponent modulus : Word, modulus ≠ 0 →
    (modExp base exponent modulus).toNat = base.toNat ^ exponent.toNat % modulus.toNat

/-- R84, R81: from the loop's start with modulus at least 2, after any number of iterations r and b are below modulus and
the next products are exact in the u64 register; the loop runs exactly bitlength(exponent) times. -/
def Obligations.ModExpLoopNeverWraps : Prop :=
  ∀ (base exponent modulus : Word) (d : ModexpRegs), 2 ≤ modulus.toNat →
    (∀ n : Nat,
      let it := ModexpRegs.iterate^[n] (modexpInit base exponent modulus d)
      it.m = modulus ∧ it.r.toNat < modulus.toNat ∧ it.b.toNat < modulus.toNat ∧
      it.e.toNat = exponent.toNat / 2 ^ n ∧
      (it.r.setWidth 64 * it.b.setWidth 64 : DWord).toNat = it.r.toNat * it.b.toNat ∧
      (it.b.setWidth 64 * it.b.setWidth 64 : DWord).toNat = it.b.toNat * it.b.toNat) ∧
    modexpLoop 32 (modexpInit base exponent modulus d) =
      ModexpRegs.iterate^[exponent.toNat.size] (modexpInit base exponent modulus d)

/-- R87: POWMOD from issue to completion: from any idle state with ARG2 at least 1, the write of its word and then a
completion leave RESULT = base^exponent mod modulus, BUSY 0, DONE 1, ERR 0, and CMD the word. -/
def Obligations.PowmodLeavesThePowerInResult : Prop :=
  ∀ s : State, Inv s → s.status.busy = false → s.arg2 ≠ 0 →
    ∃ t, runSteps 2 ((s.facing .engine).facing (writeTurn 0 1)) = .next t ∧
      t.result.toNat = s.arg0.toNat ^ s.arg1.toNat % s.arg2.toNat ∧ t.pend = none ∧ t.cmd = 1 ∧
      t.status = { s.status with busy := false, done := true, err := 0 } ∧
      t.arg0 = s.arg0 ∧ t.arg1 = s.arg1 ∧ t.arg2 = s.arg2 ∧ t.turns = s.turns

/-! ### BBPX (43_bbp.md) -/

/-- R97, R89 to R96: for every index HEXDIGIT accepts, the digit the units compute on their registers, with the numerators
from the 32-bit MODEXP, is that of the formulas of 43_bbp.md with mathematical residues 16^(m-1-k) mod (8k + C), at
m = n + 1. -/
def Obligations.HexDigitIsThatOfTheFormulas : Prop :=
  ∀ n : Word, n.toNat ≤ 0x1FFFFFFF → hexDigitAt n = digitOfRaw (rawFormula (n.toNat + 1))

/-- R97, R100: HEXDIGIT from issue to completion: from any idle state with ARG0 at most N_MAX, the write of its word and
then a completion leave RESULT = the digit of ARG0, zero-extended: it depends on nothing else of the state. -/
def Obligations.HexdigitLeavesTheDigitInResult : Prop :=
  ∀ s : State, Inv s → s.status.busy = false → s.arg0.toNat ≤ 0x1FFFFFFF →
    ∃ t, runSteps 2 ((s.facing .engine).facing (writeTurn 0 2)) = .next t ∧
      t.result = (digitOfRaw (rawFormula (s.arg0.toNat + 1))).setWidth 32 ∧ t.result.toNat ≤ 15 ∧ t.pend = none ∧
      t.cmd = 2 ∧ t.status = { s.status with busy := false, done := true, err := 0 } ∧
      t.arg0 = s.arg0 ∧ t.arg1 = s.arg1 ∧ t.arg2 = s.arg2 ∧ t.turns = s.turns

/-- R93: at series index 0 the finite part is exactly +0.0 and the sum is the tail alone. -/
def Obligations.EmptyFinitePartIsZero : Prop :=
  ∀ c ∈ [1, 4, 5, 6], finiteFormula c 0 = .fin false 0 (-1074) ∧ seriesFormula c 0 = tailFormula c 0

/-- The worked digits of the source and of 95_test_vectors.md section 2.5: indices 0, 1 and 3 give 2, 4 and 15, and the
formula at m = 0 gives 3. -/
def Obligations.WorkedDigitsOfPi : Prop :=
  hexDigitAt 0 = 2 ∧ hexDigitAt 1 = 4 ∧ hexDigitAt 3 = 15 ∧ digitOfRaw (rawFormula 0) = 3

/-- R11 with G1: the four arithmetic operators round the exact result once, to nearest, ties to even, wherever it is
within the largest finite number. -/
def Obligations.ArithmeticRoundsToNearestEven : Prop :=
  ∀ a b : Fp, Fp.finite a = true → Fp.finite b = true →
    (|Fp.val a + Fp.val b| ≤ fpMax → RoundsTo (Fp.val a + Fp.val b) (fpOps.fadd a b)) ∧
    (|Fp.val a - Fp.val b| ≤ fpMax → RoundsTo (Fp.val a - Fp.val b) (fpOps.fsub a b)) ∧
    (|Fp.val a * Fp.val b| ≤ fpMax → RoundsTo (Fp.val a * Fp.val b) (fpOps.fmul a b)) ∧
    (Fp.val b ≠ 0 → |Fp.val a / Fp.val b| ≤ fpMax → RoundsTo (Fp.val a / Fp.val b) (fpOps.fdiv a b))

/-- R11: toF is exact below 2^53, ffloor is the exact floor, and toInt is exact on the integers in [0, 15]. -/
def Obligations.ConversionsAndFloorAreExact : Prop :=
  (∀ i : Nat, i < 2 ^ 53 → Fp.finite (fpOps.toF i) = true ∧ Fp.val (fpOps.toF i) = i) ∧
  (∀ a : Fp, Fp.finite a = true → Fp.finite (fpOps.ffloor a) = true ∧ Fp.val (fpOps.ffloor a) = ⌊Fp.val a⌋) ∧
  (∀ (a : Fp) (i : Nat), Fp.finite a = true → i ≤ 15 → Fp.val a = i → (fpOps.toInt a).toNat = i)

/-- R92: the denominator of every tail term is exact, for every index HEXDIGIT uses. -/
def Obligations.TailDenominatorsAreExact : Prop :=
  ∀ c m i : Nat, c ∈ [1, 4, 5, 6] → m ≤ 0x20000000 → i < 5 →
    Fp.val (fpOps.fmul (fpOps.toF (16 ^ (i + 1))) (fpOps.toF (8 * (m + i) + c))) =
      (16 ^ (i + 1) * (8 * (m + i) + c) : ℕ)

/-- R94: for every series index HEXDIGIT uses, the finite part is a finite number in [0, m], the tail one in (0, 1/8), and
the sum and raw are finite. -/
def Obligations.SeriesValuesStayInRange : Prop :=
  ∀ m : Nat, m ≤ 0x20000000 →
    (∀ c ∈ [1, 4, 5, 6],
      Fp.finite (finiteFormula c m) = true ∧ 0 ≤ Fp.val (finiteFormula c m) ∧ Fp.val (finiteFormula c m) ≤ m ∧
      Fp.finite (tailFormula c m) = true ∧ 0 < Fp.val (tailFormula c m) ∧ Fp.val (tailFormula c m) < 1 / 8 ∧
      Fp.finite (seriesFormula c m) = true) ∧
    Fp.finite (rawFormula m) = true

/-- R96: from every finite raw, x is in [1, 2], y is in [0, 1) and is the fractional part of x, 16·y is exact, and the
digit is its floor: in [0, 15], and no free value. -/
def Obligations.ExtractionYieldsAHexDigit : Prop :=
  ∀ raw : Fp, Fp.finite raw = true →
    let x := extractX fpOps raw
    let y := extractY fpOps x
    Fp.finite x = true ∧ 1 ≤ Fp.val x ∧ Fp.val x ≤ 2 ∧
    Fp.finite y = true ∧ 0 ≤ Fp.val y ∧ Fp.val y < 1 ∧ Fp.val y = Fp.val x - ⌊Fp.val x⌋ ∧
    Fp.val (fpOps.fmul (fpOps.toF 16) y) = 16 * Fp.val y ∧
    ((digitOfRaw raw).toNat : ℤ) = ⌊16 * Fp.val y⌋

/-! ### Reset (70_reset_and_hazards.md) -/

/-- R117: the state after reset. -/
def Obligations.ResetStateHoldsTheSpecValues : Prop :=
  State.reset.cmd = 0x00000000 ∧ State.reset.status.toWord = 0x00000000 ∧ State.reset.arg0 = 0x00000000 ∧
  State.reset.arg1 = 0x00000000 ∧ State.reset.arg2 = 0x00000000 ∧ State.reset.result = 0x00000000 ∧
  State.reset.readReg .rsv6 = 0x00000000 ∧ State.reset.readReg .rsv7 = 0x00000000 ∧ State.reset.pend = none ∧
  State.reset.busyO = false ∧ State.reset.doneO = false

/-- R116: a step of reset, from any state and whatever the other ports hold, puts every register to its value after reset
and abandons the command in flight (the hidden datapath registers are unspecified then, R117). -/
def Obligations.ResetStepClearsEverything : Prop :=
  ∀ (s : State) (we : Bool) (addr : BitVec 3) (v : Word),
    ∃ t, step (s.facing (.pins (resetPins we addr v))) = .next t ∧
      t.cmd = 0 ∧ t.status = Status.zero ∧ t.arg0 = 0 ∧ t.arg1 = 0 ∧ t.arg2 = 0 ∧ t.result = 0 ∧ t.pend = none ∧
      t.turns = s.turns

/-- R116: a reset step, from any state, puts every register to 0 and PEND to none, and an abandoned command never
completes: however many turns the engine gets afterwards, all of it stays as the reset left it. -/
def Obligations.AbandonedCommandNeverCompletes : Prop :=
  ∀ (s : State) (we : Bool) (addr : BitVec 3) (v : Word) (n : Nat),
    ∃ t, runSteps (n + 1)
        { s with turns := .pins (resetPins we addr v) :: List.replicate n .engine ++ s.turns } = .next t ∧
      t.result = 0 ∧ t.status = Status.zero ∧ t.pend = none ∧ t.cmd = 0 ∧ t.arg0 = 0 ∧ t.arg1 = 0 ∧ t.arg2 = 0 ∧
      t.turns = s.turns

/-- R125: no transaction may be presented in the step of a reset; the model stops on one, whatever the state (log 7, the
model's choice of how). -/
def Obligations.TransactionDuringResetStops : Prop :=
  ∀ (s : State) (we : Bool) (addr : BitVec 3) (v : Word),
    step (s.facing (.pins { rst := true, sel := true, we := we, addr := addr, wdata := v })) =
      .fault .transactionDuringReset

/-! ### The whole machine -/

/-- R80, R18, R30: every step of every agent keeps the invariant. -/
def Obligations.EveryStepKeepsTheInvariant : Prop :=
  ∀ s t : State, Inv s → step s = .next t → Inv t

/-- The state after reset meets the invariant. -/
def Obligations.ResetStateMeetsTheInvariant : Prop := Inv State.reset

/-- R18: what STATUS reads as is always a legal value: the reserved bits are 0, ERR is at most 3, and BUSY excludes DONE
and an error. -/
def Obligations.StatusReadsAsALegalValue : Prop :=
  ∀ s : State, Inv s →
    let w := s.readReg .status
    w.extractLsb' 2 2 = 0 ∧ w.extractLsb' 9 23 = 0 ∧ (w.extractLsb' 4 4).toNat ≤ 3 ∧
    ¬(w.getLsbD 0 = true ∧ w.getLsbD 1 = true) ∧ ¬(w.getLsbD 0 = true ∧ w.extractLsb' 4 4 ≠ 0)

/-- R80, R26: RESULT changes only at a completion step (to the value of the command in flight) or at a reset (to 0). -/
def Obligations.ResultChangesOnlyAtCompletionOrReset : Prop :=
  ∀ s t : State, Inv s → step s = .next t →
    t.result = s.result ∨
    (∃ p, s.pend = some p ∧ t.pend = none ∧ t.result = completionValue p) ∨
    (∃ u rest, s.turns = u :: rest ∧ u.isReset = true ∧ t.result = 0)

/-- R23, R24, R25: an argument register changes only in a step whose operation is a write to it (at the ports, or there by
way of a platform bus) that BUSY does not drop, to the value written, or by reset, to 0. -/
def Obligations.ArgumentsChangeOnlyByHostWriteOrReset : Prop :=
  ∀ s t : State, step s = .next t →
    (t.arg0 = s.arg0 ∧ t.arg1 = s.arg1 ∧ t.arg2 = s.arg2) ∨
    (∃ u rest, s.turns = u :: rest ∧ u.isReset = true ∧ t.arg0 = 0 ∧ t.arg1 = 0 ∧ t.arg2 = 0) ∨
    (s.status.busy = false ∧ ∃ u rest v, s.turns = u :: rest ∧
      ((u.operation = some (.wrArg0 v) ∧ t.arg0 = v ∧ t.arg1 = s.arg1 ∧ t.arg2 = s.arg2) ∨
       (u.operation = some (.wrArg1 v) ∧ t.arg1 = v ∧ t.arg0 = s.arg0 ∧ t.arg2 = s.arg2) ∨
       (u.operation = some (.wrArg2 v) ∧ t.arg2 = v ∧ t.arg0 = s.arg0 ∧ t.arg1 = s.arg1)))

/-- R19: BUSY is set only in a step whose operation is a write to CMD that accepts POWMOD or HEXDIGIT, and cleared only in a
turn of the engine that completes the command in flight, or by a reset. -/
def Obligations.BusyChangesOnlyAsItsRuleSays : Prop :=
  ∀ s t : State, Inv s → step s = .next t →
    (s.status.busy = false → t.status.busy = true → ∃ u rest v, s.turns = u :: rest ∧ u.operation = some (.wrCmd v) ∧
      (v = 1 ∧ s.arg2 ≠ 0 ∨ v = 2 ∧ s.arg0.toNat ≤ 0x1FFFFFFF) ∧ t.cmd = v ∧ s.pend = none ∧ t.pend.isSome = true) ∧
    (s.status.busy = true → t.status.busy = false →
      ((s.turns = [] ∨ ∃ rest, s.turns = .engine :: rest) ∧
        ∃ p, s.pend = some p ∧ t.pend = none ∧ t.result = completionValue p ∧ t.status.done = true) ∨
      (∃ u rest, s.turns = u :: rest ∧ u.isReset = true))

/-- R20: DONE is set only in a turn of the engine that completes the command in flight, or in a step whose operation is a
write to CMD that ends with an error at issue; and cleared only in a step whose operation is a write to CMD, kept, that
accepts POWMOD or HEXDIGIT or is CLEAR, or by a reset: NOP leaves it. -/
def Obligations.DoneChangesOnlyAsItsRuleSays : Prop :=
  ∀ s t : State, Inv s → step s = .next t →
    (s.status.done = false → t.status.done = true →
      ((s.turns = [] ∨ ∃ rest, s.turns = .engine :: rest) ∧
        ∃ p, s.pend = some p ∧ t.pend = none ∧ t.result = completionValue p) ∨
      (s.status.busy = false ∧ t.status.busy = false ∧ ∃ u rest v, s.turns = u :: rest ∧
        u.operation = some (.wrCmd v) ∧ t.cmd = v ∧
        (3 < v.toNat ∧ t.status.err = 2 ∨ (v = 1 ∧ s.arg2 = 0 ∧ t.status.err = 1) ∨
          (v = 2 ∧ 0x1FFFFFFF < s.arg0.toNat ∧ t.status.err = 3)))) ∧
    (s.status.done = true → t.status.done = false →
      (s.status.busy = false ∧ ∃ u rest v, s.turns = u :: rest ∧ u.operation = some (.wrCmd v) ∧ t.cmd = v ∧
        (v = 1 ∧ t.status.busy = true ∨ v = 2 ∧ t.status.busy = true ∨ v = 3)) ∨
      (∃ u rest, s.turns = u :: rest ∧ u.isReset = true))

/-- R22: BUSYERR is set only in a step whose operation is a write to CMD, ARG0, ARG1 or ARG2 while BUSY = 1, which leaves the
command in flight and those registers alone; and once set only a write of CLEAR to CMD while idle, or a reset, clears it. -/
def Obligations.BusyErrIsSticky : Prop :=
  ∀ s t : State, step s = .next t →
    (s.status.busyErr = false → t.status.busyErr = true → s.status.busy = true ∧
      (∃ u rest i, s.turns = u :: rest ∧ u.operation = some i ∧ (isCmdWrite i = true ∨ isArgWrite i = true)) ∧
      t.pend = s.pend ∧ t.cmd = s.cmd ∧ t.arg0 = s.arg0 ∧ t.arg1 = s.arg1 ∧ t.arg2 = s.arg2) ∧
    (s.status.busyErr = true → t.status.busyErr = false →
      (s.status.busy = false ∧ ∃ u rest, s.turns = u :: rest ∧ u.operation = some (.wrCmd 3)) ∨
      (∃ u rest, s.turns = u :: rest ∧ u.isReset = true))

/-- R33, R110: `busy_o` and `done_o` are bits 0 and 1 of what a read of STATUS returns. -/
def Obligations.OutputsFollowStatus : Prop :=
  ∀ s : State, s.busyO = (s.readReg .status).getLsbD 0 ∧ s.doneO = (s.readReg .status).getLsbD 1

/-- R31, R32, R117: the datapath registers are unobservable: from two states that differ only in them (and in the counter
of their free values), every step has outcomes that differ only there. -/
def Obligations.DatapathRegistersAreUnobservable : Prop :=
  ∀ s t : State, s.visible = t.visible → sameOutcome (step s) (step t)

/-! ### The platform's view (20_memory.md R35 to R37) and host programs (30_encoding.md section 3) -/

/-- R35, R36: an aligned access of 4 bytes at CORE_BASE + 4·A is the transaction at word address A, with the bytes of a
write in little-endian order. -/
def Obligations.PlatformWordAccessIsTheTransaction : Prop :=
  ∀ (s : State) (a : BitVec 3) (b0 b1 b2 b3 : Byte),
    step (s.facing (.platform (.read (Config.coreBase + 4 * a.toNat) 4))) =
      step (s.facing (.pins (Pins.transaction false a 0))) ∧
    step (s.facing (.platform (.write (Config.coreBase + 4 * a.toNat) [b0, b1, b2, b3]))) =
      step (s.facing (.pins (Pins.transaction true a (b3 ++ b2 ++ b1 ++ b0))))

/-- R36: byte j of the word at word address A, which a platform sees at offset 4·A + j, is bits [8j+7:8j] of the
register, and the four bytes make the register up. -/
def Obligations.ByteLanesAreLittleEndian : Prop :=
  ∀ (s : State) (a : BitVec 3),
    (∀ j : Nat, j < 4 → s.windowByte (4 * a.toNat + j) = (s.readReg (Reg.ofAddr a)).extractLsb' (8 * j) 8) ∧
    s.windowByte (4 * a.toNat + 3) ++ s.windowByte (4 * a.toNat + 2) ++ s.windowByte (4 * a.toNat + 1) ++
      s.windowByte (4 * a.toNat) = s.readReg (Reg.ofAddr a)

/-- R37: a byte, half-word or other access that is no whole word is refused, and so is a misaligned word in the window. -/
def Obligations.SubWordAndMisalignedAccessesAreRefused : Prop :=
  ∀ (s : State) (addr : Nat),
    (∀ size, size ≠ 4 → step (s.facing (.platform (.read addr size))) = .refused .notWholeWord) ∧
    (∀ bytes : List Byte, bytes.length ≠ 4 → step (s.facing (.platform (.write addr bytes))) = .refused .notWholeWord) ∧
    (∀ off, off < 32 → off % 4 ≠ 0 →
      step (s.facing (.platform (.read (Config.coreBase + off) 4))) = .refused .misaligned ∧
      ∀ b0 b1 b2 b3 : Byte,
        step (s.facing (.platform (.write (Config.coreBase + off) [b0, b1, b2, b3]))) = .refused .misaligned)

/-- R54: the pseudo-instruction `POWMOD b, e, m` stands for three argument writes, the command, the poll loop and the
read of RESULT. R56: a value wider than 32 bits is refused by name and line, in a WR line of any register, as the operand of
HEXDIGIT and as any operand of POWMOD. The model's choices: the fresh label is the line's number (log 20), and of several
wide operands the first is named (log 22). -/
def Obligations.PseudoPowmodExpandsToItsTransactions : Prop :=
  (∀ (n b e m : Nat), b < 2 ^ 32 → e < 2 ^ 32 → m < 2 ^ 32 →
    transcribe n [.powmod (.num b) (.num e) (.num m)] = .ok
      [.transaction (0xA#4 ++ BitVec.ofNat 32 b), .transaction (0xB#4 ++ BitVec.ofNat 32 e),
       .transaction (0xC#4 ++ BitVec.ofNat 32 m), .transaction (0x8#4 ++ 1#32),
       .label (.fresh n), .transaction (0x1#4 ++ 0#32), .br (.bitSet 0) (.fresh n), .transaction (0x5#4 ++ 0#32)]) ∧
  (∀ n v : Nat, 2 ^ 32 ≤ v →
    (∀ reg ∈ ["CMD", "STATUS", "ARG0", "ARG1", "ARG2", "RESULT", "RSV6", "RSV7"],
      transcribe n [.wr reg (.num v)] = .error (.valueTooWide n v)) ∧
    transcribe n [.hexdigit (.num v)] = .error (.valueTooWide n v) ∧
    (∀ e m : HostValue, transcribe n [.powmod (.num v) e m] = .error (.valueTooWide n v)) ∧
    (∀ (b : Nat) (m : HostValue), b < 2 ^ 32 →
      transcribe n [.powmod (.num b) (.num v) m] = .error (.valueTooWide n v)) ∧
    (∀ b e : Nat, b < 2 ^ 32 → e < 2 ^ 32 →
      transcribe n [.powmod (.num b) (.num e) (.num v)] = .error (.valueTooWide n v)))
end

