-- ==== Sys2Proof/Laws/State.lean ====
section
/-! SUPPORT. What each named update does to each field of the state, so that no proof unfolds one. -/

namespace Sys2Proof.Machine

variable (s : State)

@[simp] theorem State.busRead_cmd (r : Reg) : (s.busRead r).cmd = s.cmd := rfl
@[simp] theorem State.busRead_status (r : Reg) : (s.busRead r).status = s.status := rfl
@[simp] theorem State.busRead_arg0 (r : Reg) : (s.busRead r).arg0 = s.arg0 := rfl
@[simp] theorem State.busRead_arg1 (r : Reg) : (s.busRead r).arg1 = s.arg1 := rfl
@[simp] theorem State.busRead_arg2 (r : Reg) : (s.busRead r).arg2 = s.arg2 := rfl
@[simp] theorem State.busRead_result (r : Reg) : (s.busRead r).result = s.result := rfl
@[simp] theorem State.busRead_pend (r : Reg) : (s.busRead r).pend = s.pend := rfl
@[simp] theorem State.busRead_datapath (r : Reg) : (s.busRead r).datapath = s.datapath := rfl
@[simp] theorem State.busRead_rdata (r : Reg) : (s.busRead r).rdata = some (s.readReg r) := rfl
@[simp] theorem State.busRead_turns (r : Reg) : (s.busRead r).turns = s.turns := rfl
@[simp] theorem State.busRead_freeCtr (r : Reg) : (s.busRead r).freeCtr = s.freeCtr := rfl

@[simp] theorem State.raiseError_cmd (e : ErrorKind) : (s.raiseError e).cmd = s.cmd := rfl
@[simp] theorem State.raiseError_status (e : ErrorKind) : (s.raiseError e).status = s.status.record e := rfl
@[simp] theorem State.raiseError_arg0 (e : ErrorKind) : (s.raiseError e).arg0 = s.arg0 := rfl
@[simp] theorem State.raiseError_arg1 (e : ErrorKind) : (s.raiseError e).arg1 = s.arg1 := rfl
@[simp] theorem State.raiseError_arg2 (e : ErrorKind) : (s.raiseError e).arg2 = s.arg2 := rfl
@[simp] theorem State.raiseError_result (e : ErrorKind) : (s.raiseError e).result = s.result := rfl
@[simp] theorem State.raiseError_pend (e : ErrorKind) : (s.raiseError e).pend = s.pend := rfl
@[simp] theorem State.raiseError_datapath (e : ErrorKind) : (s.raiseError e).datapath = s.datapath := rfl
@[simp] theorem State.raiseError_rdata (e : ErrorKind) : (s.raiseError e).rdata = s.rdata := rfl
@[simp] theorem State.raiseError_turns (e : ErrorKind) : (s.raiseError e).turns = s.turns := rfl
@[simp] theorem State.raiseError_freeCtr (e : ErrorKind) : (s.raiseError e).freeCtr = s.freeCtr := rfl

@[simp] theorem State.clearErrors_cmd : (s.clearErrors).cmd = s.cmd := rfl
@[simp] theorem State.clearErrors_status : (s.clearErrors).status = s.status.clear := rfl
@[simp] theorem State.clearErrors_arg0 : (s.clearErrors).arg0 = s.arg0 := rfl
@[simp] theorem State.clearErrors_arg1 : (s.clearErrors).arg1 = s.arg1 := rfl
@[simp] theorem State.clearErrors_arg2 : (s.clearErrors).arg2 = s.arg2 := rfl
@[simp] theorem State.clearErrors_result : (s.clearErrors).result = s.result := rfl
@[simp] theorem State.clearErrors_pend : (s.clearErrors).pend = s.pend := rfl
@[simp] theorem State.clearErrors_datapath : (s.clearErrors).datapath = s.datapath := rfl
@[simp] theorem State.clearErrors_rdata : (s.clearErrors).rdata = s.rdata := rfl
@[simp] theorem State.clearErrors_turns : (s.clearErrors).turns = s.turns := rfl
@[simp] theorem State.clearErrors_freeCtr : (s.clearErrors).freeCtr = s.freeCtr := rfl

@[simp] theorem State.accept_cmd (op : PendOp) : (s.accept op).cmd = s.cmd := rfl
@[simp] theorem State.accept_status (op : PendOp) : (s.accept op).status = s.status.accept := rfl
@[simp] theorem State.accept_arg0 (op : PendOp) : (s.accept op).arg0 = s.arg0 := rfl
@[simp] theorem State.accept_arg1 (op : PendOp) : (s.accept op).arg1 = s.arg1 := rfl
@[simp] theorem State.accept_arg2 (op : PendOp) : (s.accept op).arg2 = s.arg2 := rfl
@[simp] theorem State.accept_result (op : PendOp) : (s.accept op).result = s.result := rfl
@[simp] theorem State.accept_pend (op : PendOp) : (s.accept op).pend = some (s.capture op) := rfl
@[simp] theorem State.accept_datapath (op : PendOp) : (s.accept op).datapath = s.datapath := rfl
@[simp] theorem State.accept_rdata (op : PendOp) : (s.accept op).rdata = s.rdata := rfl
@[simp] theorem State.accept_turns (op : PendOp) : (s.accept op).turns = s.turns := rfl
@[simp] theorem State.accept_freeCtr (op : PendOp) : (s.accept op).freeCtr = s.freeCtr := rfl

@[simp] theorem State.freeDatapath_cmd : (s.freeDatapath).cmd = s.cmd := rfl
@[simp] theorem State.freeDatapath_status : (s.freeDatapath).status = s.status := rfl
@[simp] theorem State.freeDatapath_arg0 : (s.freeDatapath).arg0 = s.arg0 := rfl
@[simp] theorem State.freeDatapath_arg1 : (s.freeDatapath).arg1 = s.arg1 := rfl
@[simp] theorem State.freeDatapath_arg2 : (s.freeDatapath).arg2 = s.arg2 := rfl
@[simp] theorem State.freeDatapath_result : (s.freeDatapath).result = s.result := rfl
@[simp] theorem State.freeDatapath_pend : (s.freeDatapath).pend = s.pend := rfl
@[simp] theorem State.freeDatapath_datapath : (s.freeDatapath).datapath = Datapath.free s.freeCtr := rfl
@[simp] theorem State.freeDatapath_rdata : (s.freeDatapath).rdata = s.rdata := rfl
@[simp] theorem State.freeDatapath_turns : (s.freeDatapath).turns = s.turns := rfl
@[simp] theorem State.freeDatapath_freeCtr : (s.freeDatapath).freeCtr = s.freeCtr + 1 := rfl

@[simp] theorem State.resetCore_cmd : (s.resetCore).cmd = 0 := rfl
@[simp] theorem State.resetCore_status : (s.resetCore).status = Status.zero := rfl
@[simp] theorem State.resetCore_arg0 : (s.resetCore).arg0 = 0 := rfl
@[simp] theorem State.resetCore_arg1 : (s.resetCore).arg1 = 0 := rfl
@[simp] theorem State.resetCore_arg2 : (s.resetCore).arg2 = 0 := rfl
@[simp] theorem State.resetCore_result : (s.resetCore).result = 0 := rfl
@[simp] theorem State.resetCore_pend : (s.resetCore).pend = none := rfl
@[simp] theorem State.resetCore_datapath : (s.resetCore).datapath = Datapath.free s.freeCtr := rfl
@[simp] theorem State.resetCore_rdata : (s.resetCore).rdata = s.rdata := rfl
@[simp] theorem State.resetCore_turns : (s.resetCore).turns = s.turns := rfl
@[simp] theorem State.resetCore_freeCtr : (s.resetCore).freeCtr = s.freeCtr + 1 := rfl

@[simp] theorem State.complete_cmd (p : Pending) : (s.complete p).cmd = s.cmd := rfl
@[simp] theorem State.complete_status (p : Pending) : (s.complete p).status = s.status.complete := rfl
@[simp] theorem State.complete_arg0 (p : Pending) : (s.complete p).arg0 = s.arg0 := rfl
@[simp] theorem State.complete_arg1 (p : Pending) : (s.complete p).arg1 = s.arg1 := rfl
@[simp] theorem State.complete_arg2 (p : Pending) : (s.complete p).arg2 = s.arg2 := rfl
@[simp] theorem State.complete_result (p : Pending) : (s.complete p).result = (completionRun p s.datapath).2 := rfl
@[simp] theorem State.complete_pend (p : Pending) : (s.complete p).pend = none := rfl
@[simp] theorem State.complete_datapath (p : Pending) : (s.complete p).datapath = Datapath.free s.freeCtr := rfl
@[simp] theorem State.complete_rdata (p : Pending) : (s.complete p).rdata = s.rdata := rfl
@[simp] theorem State.complete_turns (p : Pending) : (s.complete p).turns = s.turns := rfl
@[simp] theorem State.complete_freeCtr (p : Pending) : (s.complete p).freeCtr = s.freeCtr + 1 := rfl

@[simp] theorem State.beginStep_cmd (rest : List Turn) : (s.beginStep rest).cmd = s.cmd := rfl
@[simp] theorem State.beginStep_status (rest : List Turn) : (s.beginStep rest).status = s.status := rfl
@[simp] theorem State.beginStep_arg0 (rest : List Turn) : (s.beginStep rest).arg0 = s.arg0 := rfl
@[simp] theorem State.beginStep_arg1 (rest : List Turn) : (s.beginStep rest).arg1 = s.arg1 := rfl
@[simp] theorem State.beginStep_arg2 (rest : List Turn) : (s.beginStep rest).arg2 = s.arg2 := rfl
@[simp] theorem State.beginStep_result (rest : List Turn) : (s.beginStep rest).result = s.result := rfl
@[simp] theorem State.beginStep_pend (rest : List Turn) : (s.beginStep rest).pend = s.pend := rfl
@[simp] theorem State.beginStep_datapath (rest : List Turn) : (s.beginStep rest).datapath = s.datapath := rfl
@[simp] theorem State.beginStep_rdata (rest : List Turn) : (s.beginStep rest).rdata = none := rfl
@[simp] theorem State.beginStep_turns (rest : List Turn) : (s.beginStep rest).turns = rest := rfl
@[simp] theorem State.beginStep_freeCtr (rest : List Turn) : (s.beginStep rest).freeCtr = s.freeCtr := rfl

@[simp] theorem State.facing_cmd (t : Turn) : (s.facing t).cmd = s.cmd := rfl
@[simp] theorem State.facing_status (t : Turn) : (s.facing t).status = s.status := rfl
@[simp] theorem State.facing_arg0 (t : Turn) : (s.facing t).arg0 = s.arg0 := rfl
@[simp] theorem State.facing_arg1 (t : Turn) : (s.facing t).arg1 = s.arg1 := rfl
@[simp] theorem State.facing_arg2 (t : Turn) : (s.facing t).arg2 = s.arg2 := rfl
@[simp] theorem State.facing_result (t : Turn) : (s.facing t).result = s.result := rfl
@[simp] theorem State.facing_pend (t : Turn) : (s.facing t).pend = s.pend := rfl
@[simp] theorem State.facing_datapath (t : Turn) : (s.facing t).datapath = s.datapath := rfl
@[simp] theorem State.facing_rdata (t : Turn) : (s.facing t).rdata = s.rdata := rfl
@[simp] theorem State.facing_turns (t : Turn) : (s.facing t).turns = t :: s.turns := rfl
@[simp] theorem State.facing_freeCtr (t : Turn) : (s.facing t).freeCtr = s.freeCtr := rfl

@[simp] theorem State.visible_cmd : (s.visible).cmd = s.cmd := rfl
@[simp] theorem State.visible_status : (s.visible).status = s.status := rfl
@[simp] theorem State.visible_arg0 : (s.visible).arg0 = s.arg0 := rfl
@[simp] theorem State.visible_arg1 : (s.visible).arg1 = s.arg1 := rfl
@[simp] theorem State.visible_arg2 : (s.visible).arg2 = s.arg2 := rfl
@[simp] theorem State.visible_result : (s.visible).result = s.result := rfl
@[simp] theorem State.visible_pend : (s.visible).pend = s.pend := rfl
@[simp] theorem State.visible_datapath : (s.visible).datapath = { modexp := ModexpRegs.zero, bbpx := BbpxRegs.zero } := rfl
@[simp] theorem State.visible_rdata : (s.visible).rdata = s.rdata := rfl
@[simp] theorem State.visible_turns : (s.visible).turns = s.turns := rfl
@[simp] theorem State.visible_freeCtr : (s.visible).freeCtr = 0 := rfl

variable (st : Status)

@[simp] theorem Status.accept_busy : (st.accept).busy = true := rfl
@[simp] theorem Status.accept_done : (st.accept).done = false := rfl
@[simp] theorem Status.accept_err : (st.accept).err = 0 := rfl
@[simp] theorem Status.accept_busyErr : (st.accept).busyErr = st.busyErr := rfl

@[simp] theorem Status.complete_busy : (st.complete).busy = false := rfl
@[simp] theorem Status.complete_done : (st.complete).done = true := rfl
@[simp] theorem Status.complete_err : (st.complete).err = st.err := rfl
@[simp] theorem Status.complete_busyErr : (st.complete).busyErr = st.busyErr := rfl

@[simp] theorem Status.record_busy (e : ErrorKind) : (st.record e).busy = st.busy := rfl
@[simp] theorem Status.record_done (e : ErrorKind) : (st.record e).done = true := rfl
@[simp] theorem Status.record_err (e : ErrorKind) : (st.record e).err = errorCode e := rfl
@[simp] theorem Status.record_busyErr (e : ErrorKind) : (st.record e).busyErr = st.busyErr := rfl

@[simp] theorem Status.clear_busy : (st.clear).busy = st.busy := rfl
@[simp] theorem Status.clear_done : (st.clear).done = false := rfl
@[simp] theorem Status.clear_err : (st.clear).err = 0 := rfl
@[simp] theorem Status.clear_busyErr : (st.clear).busyErr = false := rfl

@[simp] theorem Status.drop_busy : (st.drop).busy = st.busy := rfl
@[simp] theorem Status.drop_done : (st.drop).done = st.done := rfl
@[simp] theorem Status.drop_err : (st.drop).err = st.err := rfl
@[simp] theorem Status.drop_busyErr : (st.drop).busyErr = true := rfl

@[simp] theorem Status.zero_busy : Status.zero.busy = false := rfl
@[simp] theorem Status.zero_done : Status.zero.done = false := rfl
@[simp] theorem Status.zero_err : Status.zero.err = 0 := rfl
@[simp] theorem Status.zero_busyErr : Status.zero.busyErr = false := rfl

@[simp] theorem State.capture_op (op : PendOp) : (s.capture op).op = op := rfl
@[simp] theorem State.capture_a0 (op : PendOp) : (s.capture op).a0 = s.arg0 := rfl
@[simp] theorem State.capture_a1 (op : PendOp) : (s.capture op).a1 = s.arg1 := rfl
@[simp] theorem State.capture_a2 (op : PendOp) : (s.capture op).a2 = s.arg2 := rfl

end Sys2Proof.Machine
end

