-- ==== Sys2Proof/Laws/Modexp.lean ====
section
/-! SUPPORT. What one iteration of MODEXP does, in natural numbers, and that the registers' old contents do not matter. -/

namespace Sys2Proof.Machine

/-- A product of two registers is exact in the u64 register (R84). -/
theorem product_toNat (x y : Word) : (x.setWidth 64 * y.setWidth 64 : DWord).toNat = x.toNat * y.toNat := by
  have hx := x.isLt
  have hy := y.isLt
  have h : x.toNat * y.toNat < 2 ^ 64 := by
    calc x.toNat * y.toNat ≤ (2 ^ 32 - 1) * (2 ^ 32 - 1) := Nat.mul_le_mul (by omega) (by omega)
      _ < 2 ^ 64 := by norm_num
  rw [BitVec.toNat_mul, BitVec.toNat_setWidth, BitVec.toNat_setWidth, Nat.mod_eq_of_lt (a := x.toNat) (by omega),
    Nat.mod_eq_of_lt (a := y.toNat) (by omega), Nat.mod_eq_of_lt h]

/-- A product reduced by a modulus other than 0 fits a register again (R84). -/
theorem reduced_toNat (x y m : Word) (hm : m ≠ 0) :
    ((x.setWidth 64 * y.setWidth 64 % m.setWidth 64 : DWord).setWidth 32).toNat = x.toNat * y.toNat % m.toNat := by
  have hm' : 0 < m.toNat := by
    rcases Nat.eq_zero_or_pos m.toNat with h | h
    · exact absurd (BitVec.eq_of_toNat_eq (by simpa using h)) hm
    · exact h
  have hlt := m.isLt
  have hmod := Nat.mod_lt (x.toNat * y.toNat) hm'
  rw [BitVec.toNat_setWidth, BitVec.toNat_umod, product_toNat, BitVec.toNat_setWidth,
    Nat.mod_eq_of_lt (a := m.toNat) (by omega), Nat.mod_eq_of_lt (a := x.toNat * y.toNat % m.toNat) (by omega)]

namespace ModexpRegs

@[simp] theorem iterate_m (d : ModexpRegs) : d.iterate.m = d.m := by
  simp only [iterate, shift, square, multiply]; split <;> rfl

@[simp] theorem iterate_e (d : ModexpRegs) : d.iterate.e = d.e >>> 1 := by
  simp only [iterate, shift, square, multiply]; split <;> rfl

theorem iterate_e_toNat (d : ModexpRegs) : d.iterate.e.toNat = d.e.toNat / 2 := by
  simp [BitVec.toNat_ushiftRight, Nat.shiftRight_eq_div_pow]

theorem iterate_b_toNat (d : ModexpRegs) (hm : d.m ≠ 0) :
    d.iterate.b.toNat = d.b.toNat * d.b.toNat % d.m.toNat := by
  simp only [iterate, shift, square, multiply]
  split <;> exact reduced_toNat _ _ _ hm

theorem e_odd (d : ModexpRegs) : d.e.getLsbD 0 = decide (d.e.toNat % 2 = 1) := by
  simp [BitVec.getLsbD, Nat.testBit_zero]

theorem iterate_r_toNat (d : ModexpRegs) (hm : d.m ≠ 0) :
    d.iterate.r.toNat = if d.e.toNat % 2 = 1 then d.r.toNat * d.b.toNat % d.m.toNat else d.r.toNat := by
  simp only [iterate, shift, square, multiply, e_odd, decide_eq_true_eq]
  split
  · exact reduced_toNat _ _ _ hm
  · rfl

end ModexpRegs

/-- Nothing of ModExp reads a register before writing it: the registers' old contents do not show in the value (R31). -/
theorem modexpLoop_prod (fuel : Nat) : ∀ (d : ModexpRegs) (p : DWord),
    (modexpLoop fuel { d with prod := p }).r = (modexpLoop fuel d).r := by
  induction fuel with
  | zero => intro d p; rfl
  | succ n ih =>
    intro d p
    simp only [modexpLoop]
    split
    · rfl
    · have : ({ d with prod := p } : ModexpRegs).iterate = d.iterate := by
        simp only [ModexpRegs.iterate, ModexpRegs.shift, ModexpRegs.square, ModexpRegs.multiply]
        split <;> rfl
      rw [this]

theorem modexpRun_value (base exponent modulus : Word) (d d' : ModexpRegs) :
    (modexpRun base exponent modulus d).2 = (modexpRun base exponent modulus d').2 := by
  unfold modexpRun
  split
  · rfl
  · split
    · rfl
    · exact modexpLoop_prod 32 (modexpInit base exponent modulus d') d.prod

theorem modexpRun_eq (base exponent modulus : Word) (d : ModexpRegs) :
    (modexpRun base exponent modulus d).2 = modExp base exponent modulus :=
  modexpRun_value _ _ _ _ _

end Sys2Proof.Machine
end

