-- ==== Sys2Proof/Laws/Bbpx.lean ====
section
/-! SUPPORT. What each loop of BBPX leaves in its registers: the sums as plain recursions, everything else unchanged, so
that the value never depends on what the registers held before. -/

namespace Sys2Proof.Machine

/-- `n` terms of the finite part of series constant `c` at series index `m`, from term `k` and the sum `acc`. -/
def finiteSum (o : FpOps) (m c : Nat) : Nat → Nat → Fp → Fp
  | 0, _, acc => acc
  | n + 1, k, acc =>
    finiteSum o m c n (k + 1) (o.fadd acc (o.fdiv
      (o.toF (modExp 16#32 (BitVec.ofNat 32 (m - 1 - k)) (BitVec.ofNat 32 (8 * k + c))).toNat) (o.toF (8 * k + c))))

/-- `n` terms of the tail, from term `k` and the sum `acc`. -/
def tailSum (o : FpOps) (m c : Nat) : Nat → Nat → Fp → Fp
  | 0, _, acc => acc
  | n + 1, k, acc =>
    tailSum o m c n (k + 1) (o.fadd acc (o.fdiv (o.toF 1) (o.fmul (o.toF (16 ^ (k - m + 1))) (o.toF (8 * k + c)))))

theorem finiteTerm_bbpx (o : FpOps) (m : Nat) (d : Datapath) :
    (finiteTerm o m d).bbpx = { d.bbpx with
      f := o.fadd d.bbpx.f (o.fdiv (o.toF (modExp 16#32 (BitVec.ofNat 32 (m - 1 - d.bbpx.k))
        (BitVec.ofNat 32 (8 * d.bbpx.k + d.bbpx.c.val))).toNat) (o.toF (8 * d.bbpx.k + d.bbpx.c.val))),
      k := d.bbpx.k + 1 } := by
  simp only [finiteTerm, BbpxRegs.denominator, modexpRun_eq]

theorem finiteLoop_bbpx (o : FpOps) (m n : Nat) : ∀ d : Datapath,
    (finiteLoop o m n d).bbpx = { d.bbpx with
      f := finiteSum o m d.bbpx.c.val n d.bbpx.k d.bbpx.f, k := d.bbpx.k + n } := by
  induction n with
  | zero => intro d; rfl
  | succ n ih =>
    intro d
    rw [finiteLoop, ih, finiteTerm_bbpx]
    simp only [finiteSum, Nat.add_assoc, Nat.add_comm 1 n]

theorem tailTerm_bbpx (o : FpOps) (m : Nat) (d : Datapath) :
    (tailTerm o m d).bbpx = { d.bbpx with
      t := o.fadd d.bbpx.t (o.fdiv (o.toF 1) (o.fmul (o.toF (16 ^ (d.bbpx.k - m + 1)))
        (o.toF (8 * d.bbpx.k + d.bbpx.c.val)))),
      k := d.bbpx.k + 1 } := rfl

theorem tailLoop_bbpx (o : FpOps) (m n : Nat) : ∀ d : Datapath,
    (tailLoop o m n d).bbpx = { d.bbpx with
      t := tailSum o m d.bbpx.c.val n d.bbpx.k d.bbpx.t, k := d.bbpx.k + n } := by
  induction n with
  | zero => intro d; rfl
  | succ n ih =>
    intro d
    rw [tailLoop, ih, tailTerm_bbpx]
    simp only [tailSum, Nat.add_assoc, Nat.add_comm 1 n]

/-- The finite part and the tail of SeriesSum(C, m), as values. -/
def finiteValue (o : FpOps) (c : SeriesConst) (m : Nat) : Fp := finiteSum o m c.val m 0 (o.toF 0)
def tailValue (o : FpOps) (c : SeriesConst) (m : Nat) : Fp := tailSum o m c.val Config.tail m (o.toF 0)

theorem seriesRun_bbpx (o : FpOps) (c : SeriesConst) (m : Nat) (d : Datapath) :
    (seriesRun o c m d).bbpx = { d.bbpx with
      c := c, k := m + Config.tail, f := finiteValue o c m, t := tailValue o c m } := by
  simp only [seriesRun, tailPart, finitePart, tailLoop_bbpx, finiteLoop_bbpx, finiteValue, tailValue]

/-- SeriesSum(C, m) as a value. -/
def seriesSum (o : FpOps) (c : SeriesConst) (m : Nat) : Fp := o.fadd (finiteValue o c m) (tailValue o c m)

theorem seriesRun_value (o : FpOps) (c : SeriesConst) (m : Nat) (d : Datapath) :
    seriesValue o (seriesRun o c m d) = seriesSum o c m := by
  simp only [seriesValue, seriesRun_bbpx, seriesSum]

/-- What the four series and the extraction leave: the registers the digit is read from hold values of `m` alone. -/
theorem hexDigitRun_eq (o : FpOps) (n : Word) (d : Datapath) (h : n.toNat ≤ Config.nMax) :
    (hexDigitRun o n d).2 = extractDigit o (extractY o (extractX o (combine o
      (seriesSum o .c1 (n.toNat + 1)) (seriesSum o .c4 (n.toNat + 1))
      (seriesSum o .c5 (n.toNat + 1)) (seriesSum o .c6 (n.toNat + 1))))) := by
  simp only [hexDigitRun, if_neg (Nat.not_lt.mpr h), extractRun, runS1, runS4, runS5, runS6, seriesRun_value,
    seriesRun_bbpx]

theorem hexDigitRun_value (n : Word) (d d' : Datapath) : (hexDigitRun fpOps n d).2 = (hexDigitRun fpOps n d').2 := by
  rcases Nat.lt_or_ge Config.nMax n.toNat with h | h
  · simp only [hexDigitRun, if_pos h]
  · rw [hexDigitRun_eq _ _ _ h, hexDigitRun_eq _ _ _ h]

/-- The value of a completion does not depend on what the datapath registers held (R31, R32). -/
theorem completionRun_value (p : Pending) (d d' : Datapath) : (completionRun p d).2 = (completionRun p d').2 := by
  unfold completionRun
  cases p.op
  · exact modexpRun_value _ _ _ _ _
  · exact congrArg (·.setWidth 32) (hexDigitRun_value p.a0 d d')

end Sys2Proof.Machine
end

