-- ==== Sys2Proof/Laws/Encoding.lean ====
section
/-! SUPPORT. The fields of a packed transaction. -/

namespace Sys2Proof

@[simp] theorem busCtl_append (c : BitVec 4) (v : Word) : busCtl (c ++ v) = c := by
  simp only [busCtl]
  exact BitVec.extractLsb'_append_eq_left

@[simp] theorem busWdata_append (c : BitVec 4) (v : Word) : busWdata (c ++ v) = v := by
  simp only [busWdata]
  exact BitVec.extractLsb'_append_eq_right

/-- A transaction is its `ctl` and its `wdata`. -/
theorem bus_eq_append (t : BitVec 36) : busCtl t ++ busWdata t = t := by
  apply BitVec.eq_of_getLsbD_eq
  intro i hi
  simp only [busCtl, busWdata, BitVec.getLsbD_append, BitVec.getLsbD_extractLsb']
  by_cases h : i < 32
  · simp [h]
  · simp only [h, if_false]
    have : i - 32 < 4 := by omega
    simp only [this, decide_true, Bool.true_and]
    congr 1
    omega

end Sys2Proof
end

