-- ==== Sys2Proof/Laws/Float.lean ====
section
/-! SUPPORT. Rounding: the quotient a floating-point operation forms is rounded to the nearest value of binary64, ties to
even (R11, G1). The operations are one call of it each. -/

namespace Sys2Proof.Machine

/-- `roundDiv` is at least as near to the quotient as any integer, and even where another is equally near. -/
theorem roundDiv_nearest (n d : ℕ) (hd : 0 < d) (k : ℤ) :
    |(roundDiv n d : ℚ) - n / d| ≤ |(k : ℚ) - n / d| ∧
    (|(roundDiv n d : ℚ) - n / d| = |(k : ℚ) - n / d| → (k : ℚ) = roundDiv n d ∨ roundDiv n d % 2 = 0) := by
  have hdq : (0 : ℚ) < d := by exact_mod_cast hd
  have hn : (n : ℚ) / d = (n / d : ℕ) + ((n % d : ℕ) : ℚ) / d := by
    have h := Nat.div_add_mod n d
    field_simp
    exact_mod_cast (by linarith : n = d * (n / d) + n % d)
  have hr : n % d < d := Nat.mod_lt _ hd
  set q : ℕ := n / d with hq
  set r : ℕ := n % d with hrr
  have hfr0 : (0 : ℚ) ≤ (r : ℚ) / d := by positivity
  have hfr1 : (r : ℚ) / d < 1 := by rw [div_lt_one hdq]; exact_mod_cast hr
  set x : ℚ := (r : ℚ) / d with hx
  have hk : (k : ℤ) ≤ q ∨ (q : ℤ) + 1 ≤ k := by omega
  have hlow : (k : ℤ) ≤ q → (k : ℚ) ≤ q := fun h => by exact_mod_cast h
  have hhigh : (q : ℤ) + 1 ≤ k → (q : ℚ) + 1 ≤ k := fun h => by exact_mod_cast h
  have hxlt : 2 * r < d → x < 1 / 2 := fun h => by
    rw [hx, div_lt_iff₀ hdq]
    have : (2 * r : ℚ) < d := by exact_mod_cast h
    linarith
  have hxgt : d < 2 * r → 1 / 2 < x := fun h => by
    rw [hx, lt_div_iff₀ hdq]
    have : (d : ℚ) < 2 * r := by exact_mod_cast h
    linarith
  have hxeq : ¬ 2 * r < d → ¬ d < 2 * r → x = 1 / 2 := fun h h' => by
    rw [hx, div_eq_iff hdq.ne']
    have : (d : ℚ) = 2 * r := by exact_mod_cast (by omega : d = 2 * r)
    linarith
  have hR : roundDiv n d = if 2 * r < d then q else if d < 2 * r then q + 1 else q + q % 2 := rfl
  rw [hn, hR]
  split_ifs with h1 h2
  · have := hxlt h1
    rw [show (q : ℚ) - (q + x) = -x by ring, abs_neg, abs_of_nonneg hfr0]
    rcases hk with h | h
    · have := hlow h
      rw [abs_of_nonpos (by linarith)]
      exact ⟨by linarith, fun e => .inl (by linarith)⟩
    · have := hhigh h
      rw [abs_of_nonneg (by linarith)]
      exact ⟨by linarith, fun e => by linarith⟩
  · have := hxgt h2
    push_cast
    rw [show (q : ℚ) + 1 - (q + x) = 1 - x by ring, abs_of_nonneg (by linarith : (0 : ℚ) ≤ 1 - x)]
    rcases hk with h | h
    · have := hlow h
      rw [abs_of_nonpos (by linarith)]
      exact ⟨by linarith, fun e => by linarith⟩
    · have := hhigh h
      rw [abs_of_nonneg (by linarith)]
      exact ⟨by linarith, fun e => .inl (by linarith)⟩
  · have hx2 := hxeq h1 h2
    have heven : (q + q % 2) % 2 = 0 := by omega
    have habs : |((q + q % 2 : ℕ) : ℚ) - (q + x)| = 1 / 2 := by
      rcases Nat.mod_two_eq_zero_or_one q with h | h <;> rw [h, hx2] <;> push_cast
      · rw [show (q : ℚ) + 0 - (q + 1 / 2) = -(1 / 2) by ring, abs_neg, abs_of_pos (by norm_num)]
      · rw [show (q : ℚ) + 1 - (q + 1 / 2) = 1 / 2 by ring, abs_of_pos (by norm_num)]
    rw [habs]
    refine ⟨?_, fun _ => .inr heven⟩
    rcases hk with h | h
    · have := hlow h
      rw [abs_of_nonpos (by linarith)]; linarith
    · have := hhigh h
      rw [abs_of_nonneg (by linarith)]; linarith

/-- The floor of the binary logarithm. -/
theorem ratLog2_spec (num den : ℕ) (hn : 0 < num) (hd : 0 < den) :
    (2 : ℚ) ^ ratLog2 num den ≤ num / den ∧ (num : ℚ) / den < 2 ^ (ratLog2 num den + 1) := by
  have hdq : (0 : ℚ) < den := by exact_mod_cast hd
  have h1 := Nat.log2_self_le (by omega : num ≠ 0)
  have h2 := @Nat.lt_log2_self num
  have h3 := Nat.log2_self_le (by omega : den ≠ 0)
  have h4 := @Nat.lt_log2_self den
  unfold ratLog2
  set a := num.log2
  set b := den.log2
  have e1 : (2 : ℚ) ^ ((a : ℤ) - b) = 2 ^ a / 2 ^ b := by
    rw [zpow_sub₀ (by norm_num)]; simp
  have hb : (0 : ℚ) < 2 ^ b := by positivity
  have q1 : (2 : ℚ) ^ a ≤ num := by exact_mod_cast h1
  have q2 : (num : ℚ) < 2 ^ (a + 1) := by exact_mod_cast h2
  have q3 : (2 : ℚ) ^ b ≤ den := by exact_mod_cast h3
  have q4 : (den : ℚ) < 2 ^ (b + 1) := by exact_mod_cast h4
  simp only
  split_ifs with h
  · have hq : (den : ℚ) * 2 ^ a ≤ num * 2 ^ b := by exact_mod_cast h
    refine ⟨?_, ?_⟩
    · rw [e1, div_le_div_iff₀ hb hdq]; linarith
    · rw [zpow_add_one₀ (by norm_num), e1, div_lt_iff₀ hdq]
      calc (num : ℚ) < 2 ^ (a + 1) := q2
        _ = 2 ^ a / 2 ^ b * 2 * 2 ^ b := by field_simp; ring
        _ ≤ 2 ^ a / 2 ^ b * 2 * den := by gcongr
  · have hq : (num : ℚ) * 2 ^ b < den * 2 ^ a := by exact_mod_cast not_le.mp h
    refine ⟨?_, ?_⟩
    · rw [zpow_sub_one₀ (by norm_num), e1, le_div_iff₀ hdq]
      calc 2 ^ a / 2 ^ b * 2⁻¹ * (den : ℚ) ≤ 2 ^ a / 2 ^ b * 2⁻¹ * 2 ^ (b + 1) := by gcongr
        _ = 2 ^ a := by rw [pow_succ]; field_simp
        _ ≤ num := q1
    · rw [sub_add_cancel, e1, div_lt_div_iff₀ hdq hb]; linarith

/-- The scaling of a quotient by a power of two, with both exponents natural. -/
theorem scale_eq (num den : ℕ) (q : ℤ) :
    ((num * 2 ^ (-q).toNat : ℕ) : ℚ) / ((den * 2 ^ q.toNat : ℕ) : ℚ) = (num : ℚ) / den * 2 ^ (-q) := by
  push_cast
  rcases le_total 0 q with h | h
  · obtain ⟨k, rfl⟩ := Int.eq_ofNat_of_zero_le h
    simp [div_eq_mul_inv]
    ring
  · obtain ⟨k, hk⟩ := Int.eq_ofNat_of_zero_le (neg_nonneg.mpr h)
    have : q.toNat = 0 := by omega
    rw [this, hk]
    simp
    ring

/-- `fpMax` with its exponent an integer. -/
theorem fpMax_eq : fpMax = (2 ^ 53 - 1) * 2 ^ (971 : ℤ) := rfl

theorem fpMax_lt : fpMax < 2 ^ (1024 : ℤ) := by
  rw [fpMax_eq, show (1024 : ℤ) = 53 + 971 by norm_num, zpow_add₀ (by norm_num)]
  exact mul_lt_mul_of_pos_right (by norm_num) (by positivity)

/-- A magnitude with a sign. -/
theorem val_fin (n : Bool) (m : ℕ) (e : ℤ) : Fp.val (.fin n m e) = (if n then -1 else 1) * (m * 2 ^ e) := by
  simp only [Fp.val, mul_assoc]

/-- What a finite datum of binary64 is. -/
theorem finite_fin (n : Bool) (m : ℕ) (e : ℤ) :
    Fp.finite (.fin n m e) = true ↔
      m < 2 ^ 53 ∧ -1074 ≤ e ∧ e ≤ 971 ∧ (2 ^ 52 ≤ m ∨ e = -1074) := by
  simp only [Fp.finite, Fp.wf, Config.fp, FpFormat.qmin, FpFormat.qmax, Bool.and_eq_true, Bool.or_eq_true,
    beq_iff_eq]
  norm_num
  tauto

/-- `roundRat` at binary64, its exponent named: the quotient scaled to a 53-bit significand (or to the subnormal unit) and
rounded to an integer. -/
theorem roundRat_pos (neg : Bool) (num den : ℕ) (hn : 0 < num) :
    roundRat Config.fp neg num den =
      let q := max (ratLog2 num den - 52) (-1074)
      let sig := roundDiv (num * 2 ^ (-q).toNat) (den * 2 ^ q.toNat)
      if sig = 2 ^ 53 then (if 971 < q + 1 then .inf neg else .fin neg (2 ^ 52) (q + 1))
      else (if 971 < q then .inf neg else .fin neg sig q) := by
  have h : ¬ num = 0 := by omega
  simp only [roundRat, if_neg h, Config.fp, FpFormat.qmin, FpFormat.qmax]
  norm_num

/-- The quotient, rounded, is the finite value nearest to it, ties to even, if it is within the largest finite number. -/
theorem roundRat_roundsTo (neg : Bool) (num den : ℕ) (hd : 0 < den) (hmax : (num : ℚ) / den ≤ fpMax) :
    RoundsTo ((if neg then -1 else 1) * ((num : ℚ) / den)) (roundRat Config.fp neg num den) := by
  have hsgn : ∀ v : ℚ, |(if neg then (-1 : ℚ) else 1) * v - (if neg then -1 else 1) * ((num : ℚ) / den)| =
      |v - (num : ℚ) / den| := by
    intro v
    cases neg
    · simp
    · simp only [if_true]
      rw [show (-1 : ℚ) * v - -1 * ((num : ℚ) / den) = -(v - num / den) by ring, abs_neg]
  rcases Nat.eq_zero_or_pos num with rfl | hn
  · have hr : roundRat Config.fp neg 0 den = .fin neg 0 (-1074) := by simp [roundRat, Config.fp, FpFormat.qmin]
    rw [hr]
    refine ⟨(finite_fin _ _ _).mpr (by norm_num), fun c _ => ?_⟩
    have h0 : Fp.val (.fin neg 0 (-1074)) = 0 := by simp [val_fin]
    simp only [h0, Nat.cast_zero, zero_div, mul_zero, sub_zero, abs_zero]
    exact ⟨abs_nonneg _, fun h => .inl (abs_eq_zero.mp h.symm)⟩
  set x : ℚ := (num : ℚ) / den with hx
  have hx0 : 0 < x := by positivity
  obtain ⟨hl1, hl2⟩ := ratLog2_spec num den hn hd
  rw [roundRat_pos _ _ _ hn]
  set l := ratLog2 num den with hl
  set q := max (l - 52) (-1074) with hq
  have hq1 : l - 52 ≤ q := le_max_left _ _
  have hq2 : -1074 ≤ q := le_max_right _ _
  have hq3 : q = l - 52 ∨ q = -1074 := by
    rcases max_choice (l - 52) (-1074) with h | h
    · exact .inl h
    · exact .inr h
  simp only
  set sig := roundDiv (num * 2 ^ (-q).toNat) (den * 2 ^ q.toNat) with hsig
  have hden : 0 < den * 2 ^ q.toNat := by positivity
  have hnear := fun k => roundDiv_nearest (num * 2 ^ (-q).toNat) (den * 2 ^ q.toNat) hden k
  rw [scale_eq, ← hsig] at hnear
  set y : ℚ := x * 2 ^ (-q) with hy
  have hpow : (0 : ℚ) < 2 ^ q := by positivity
  have hxy : x = y * 2 ^ q := by
    rw [hy, mul_assoc, ← zpow_add₀ (by norm_num)]; simp
  have hylt : y < 2 ^ 53 := by
    have : x < 2 ^ (q + 53) := lt_of_lt_of_le hl2 (zpow_le_zpow_right₀ (by norm_num) (by omega))
    rw [zpow_add₀ (by norm_num), hxy] at this
    have := lt_of_mul_lt_mul_right (by linarith [mul_comm ((2 : ℚ) ^ q) (2 ^ (53 : ℤ))] : y * 2 ^ q < 2 ^ (53 : ℤ) * 2 ^ q) hpow.le
    exact_mod_cast this
  have hyge : q ≠ -1074 → 2 ^ 52 ≤ y := by
    intro h
    have h' : q = l - 52 := by rcases hq3 with h' | h'; exacts [h', absurd h' h]
    have : (2 : ℚ) ^ (q + 52) ≤ x := by rw [h']; simpa using hl1
    rw [zpow_add₀ (by norm_num), hxy] at this
    have := le_of_mul_le_mul_right (by linarith [mul_comm ((2 : ℚ) ^ q) (2 ^ (52 : ℤ))] : (2 : ℚ) ^ (52 : ℤ) * 2 ^ q ≤ y * 2 ^ q) hpow
    exact_mod_cast this
  -- the significand is nearest to y among all integers
  have hsig53 : sig ≤ 2 ^ 53 := by
    by_contra hc
    have h1 : (2 : ℚ) ^ 53 + 1 ≤ sig := by exact_mod_cast (by omega : 2 ^ 53 + 1 ≤ sig)
    have h2 := (hnear (2 ^ 53)).1
    rw [abs_of_nonneg (by linarith), abs_of_nonneg (by push_cast; linarith)] at h2
    push_cast at h2
    linarith
  have hsig52 : q ≠ -1074 → 2 ^ 52 ≤ sig := by
    intro h
    by_contra hc
    have h1 : (sig : ℚ) + 1 ≤ 2 ^ 52 := by exact_mod_cast (by omega : sig + 1 ≤ 2 ^ 52)
    have h2 := (hnear (2 ^ 52)).1
    have h3 := hyge h
    rw [abs_of_nonpos (by linarith), abs_of_nonpos (by push_cast; linarith)] at h2
    push_cast at h2
    linarith
  have hq971 : q ≤ 971 := by
    by_contra hc
    have h1 : (2 : ℚ) ^ (1024 : ℤ) ≤ x := by
      have h3 := hyge (by omega)
      calc (2 : ℚ) ^ (1024 : ℤ) = 2 ^ 52 * 2 ^ (972 : ℤ) := by
            rw [show (1024 : ℤ) = 52 + 972 by norm_num, zpow_add₀ (by norm_num)]; rfl
        _ ≤ 2 ^ 52 * 2 ^ q := by gcongr <;> [norm_num; omega]
        _ ≤ y * 2 ^ q := by gcongr
        _ = x := hxy.symm
    exact absurd (h1.trans hmax) (not_le.mpr fpMax_lt)
  have hcarry : sig = 2 ^ 53 → q + 1 ≤ 971 := by
    intro h
    by_contra hc
    have hq' : q = 971 := by omega
    have h1 : y ≤ 2 ^ 53 - 1 := by
      have : y * 2 ^ q ≤ (2 ^ 53 - 1) * 2 ^ q := by
        rw [← hxy, hq', ← fpMax_eq]; exact hmax
      exact le_of_mul_le_mul_right this hpow
    have h2 := (hnear (2 ^ 53 - 1)).1
    rw [h, abs_of_nonneg (by push_cast; linarith), abs_of_nonneg (by push_cast; linarith)] at h2
    push_cast at h2
    linarith
  -- the value of the datum is sig * 2^q in both forms
  obtain ⟨r, hr, hrfin, hrval, hreven⟩ : ∃ r : Fp,
      (if sig = 2 ^ 53 then (if 971 < q + 1 then Fp.inf neg else .fin neg (2 ^ 52) (q + 1))
        else (if 971 < q then .inf neg else .fin neg sig q)) = r ∧
      Fp.finite r = true ∧ Fp.val r = (if neg then -1 else 1) * (sig * 2 ^ q) ∧
      (sig % 2 = 0 → Fp.even r = true) := by
    by_cases hs : sig = 2 ^ 53
    · refine ⟨.fin neg (2 ^ 52) (q + 1), ?_, ?_, ?_, fun _ => rfl⟩
      · rw [if_pos hs, if_neg (by have := hcarry hs; omega)]
      · rw [finite_fin]; exact ⟨by norm_num, by omega, hcarry hs, .inl le_rfl⟩
      · rw [val_fin, hs, zpow_add_one₀ (by norm_num)]
        push_cast; ring
    · refine ⟨.fin neg sig q, ?_, ?_, val_fin _ _ _, fun h => by simp [Fp.even, h]⟩
      · rw [if_neg hs, if_neg (by omega)]
      · rw [finite_fin]
        refine ⟨by omega, hq2, hq971, ?_⟩
        by_cases h : q = -1074
        · exact .inr h
        · exact .inl (hsig52 h)
  rw [hr]
  refine ⟨hrfin, fun c hc => ?_⟩
  rw [hrval, hsgn]
  have hdist : |(sig : ℚ) * 2 ^ q - x| = |(sig : ℚ) - y| * 2 ^ q := by
    rw [hxy, ← sub_mul, abs_mul, abs_of_pos hpow]
  cases c with
  | nan => simp [Fp.finite] at hc
  | inf n => simp [Fp.finite] at hc
  | fin n m e =>
    obtain ⟨hm, he1, -, -⟩ := (finite_fin n m e).mp hc
    have hv : ∃ v : ℚ, Fp.val (.fin n m e) = (if neg then -1 else 1) * v ∧
        (v = m * 2 ^ e ∨ v = -(m * 2 ^ e)) := by
      rw [val_fin]
      cases n <;> cases neg
      · exact ⟨_, by simp, .inl rfl⟩
      · exact ⟨-(m * 2 ^ e), by simp, .inr rfl⟩
      · exact ⟨-(m * 2 ^ e), by simp, .inr rfl⟩
      · exact ⟨m * 2 ^ e, by simp, .inl rfl⟩
    obtain ⟨v, hvval, hv⟩ := hv
    rw [hvval, hsgn]
    rcases lt_or_ge e q with heq | heq
    · -- a finer datum lies below the 53-bit range
      have hq' : q ≠ -1074 := by omega
      have hmag : (m : ℚ) * 2 ^ e < 2 ^ 52 * 2 ^ q := by
        calc (m : ℚ) * 2 ^ e ≤ m * 2 ^ (q - 1) := by
              gcongr
              · norm_num
              · omega
          _ < 2 ^ 53 * 2 ^ (q - 1) := by
              have : (m : ℚ) < 2 ^ 53 := by exact_mod_cast hm
              gcongr
          _ = 2 ^ 52 * 2 ^ q := by rw [zpow_sub_one₀ (by norm_num)]; ring
      have hmag0 : (0 : ℚ) ≤ m * 2 ^ e := by positivity
      have hvlt : v < 2 ^ 52 * 2 ^ q := by
        rcases hv with rfl | rfl
        · exact hmag
        · have : (0 : ℚ) < 2 ^ 52 * 2 ^ q := by positivity
          linarith
      have hge : (2 : ℚ) ^ 52 * 2 ^ q ≤ x := by
        rw [hxy]; exact mul_le_mul_of_nonneg_right (hyge hq') hpow.le
      have hgrid : |(sig : ℚ) * 2 ^ q - x| ≤ x - 2 ^ 52 * 2 ^ q := by
        have h := (hnear (2 ^ 52)).1
        rw [hdist]
        calc |(sig : ℚ) - y| * 2 ^ q ≤ |((2 ^ 52 : ℤ) : ℚ) - y| * 2 ^ q := by gcongr
          _ = |(2 : ℚ) ^ 52 * 2 ^ q - x| := by
            rw [hxy, ← sub_mul, abs_mul, abs_of_pos hpow]; norm_num
          _ = x - 2 ^ 52 * 2 ^ q := by rw [abs_of_nonpos (by linarith)]; ring
      have hstrict : |(sig : ℚ) * 2 ^ q - x| < |v - x| := by
        rw [abs_of_nonpos (by linarith : v - x ≤ 0)]; linarith
      exact ⟨hstrict.le, fun h => absurd h hstrict.ne⟩
    · -- a datum on the grid of 2^q is an integer in units of it
      obtain ⟨k, hk⟩ : ∃ k : ℤ, v = k * 2 ^ q := by
        have hz : (m : ℚ) * 2 ^ e = ((m * 2 ^ (e - q).toNat : ℕ) : ℤ) * 2 ^ q := by
          have : (2 : ℚ) ^ e = 2 ^ ((e - q).toNat : ℤ) * 2 ^ q := by
            rw [← zpow_add₀ (by norm_num)]; congr 1; omega
          rw [this]; push_cast; rw [zpow_natCast]; ring
        rcases hv with h | h
        · exact ⟨_, h.trans hz⟩
        · exact ⟨-((m * 2 ^ (e - q).toNat : ℕ) : ℤ), by rw [h, hz]; push_cast; ring⟩
      have hkd : |v - x| = |(k : ℚ) - y| * 2 ^ q := by
        rw [hk, hxy, ← sub_mul, abs_mul, abs_of_pos hpow]
      rw [hdist, hkd]
      refine ⟨mul_le_mul_of_nonneg_right (hnear k).1 hpow.le, fun h => ?_⟩
      rcases (hnear k).2 (mul_right_cancel₀ hpow.ne' h) with h' | h'
      · exact .inl (by rw [hk, h'])
      · exact .inr (hreven h')

/-- The scaled quotient, rounded. -/
theorem roundScaled_roundsTo (neg : Bool) (num den : ℕ) (e : ℤ) (hd : 0 < den)
    (hmax : (num : ℚ) / den * 2 ^ e ≤ fpMax) :
    RoundsTo ((if neg then -1 else 1) * ((num : ℚ) / den * 2 ^ e)) (roundScaled Config.fp neg num den e) := by
  have h := scale_eq num den (-e)
  rw [neg_neg] at h
  unfold roundScaled
  rw [← h]
  exact roundRat_roundsTo neg _ _ (by positivity) (by rw [h]; exact hmax)

/-! What lies between representable bounds rounds to between them, and what is representable is left as it is. -/

theorem RoundsTo.val_le {x : ℚ} {r c : Fp} (h : RoundsTo x r) (hc : Fp.finite c = true) (hx : x ≤ Fp.val c) :
    Fp.val r ≤ Fp.val c := by
  have h1 := (h.2 c hc).1
  rw [abs_of_nonneg (by linarith : 0 ≤ Fp.val c - x)] at h1
  linarith [le_abs_self (Fp.val r - x)]

theorem RoundsTo.le_val {x : ℚ} {r c : Fp} (h : RoundsTo x r) (hc : Fp.finite c = true) (hx : Fp.val c ≤ x) :
    Fp.val c ≤ Fp.val r := by
  have h1 := (h.2 c hc).1
  rw [abs_of_nonpos (by linarith : Fp.val c - x ≤ 0)] at h1
  linarith [neg_abs_le (Fp.val r - x)]

theorem RoundsTo.val_eq {x : ℚ} {r c : Fp} (h : RoundsTo x r) (hc : Fp.finite c = true) (hx : Fp.val c = x) :
    Fp.val r = x := by
  rw [← hx]
  exact le_antisymm (h.val_le hc hx.ge) (h.le_val hc hx.le)

/-- Fifty-three bits of significand at any exponent of the format are representable. -/
theorem exists_datum (neg : Bool) (m : ℕ) (e : ℤ) (hm : m < 2 ^ 53) (he : -1074 ≤ e) (he' : e ≤ 971) :
    ∃ c, Fp.finite c = true ∧ Fp.val c = (if neg then -1 else 1) * (m * 2 ^ e) := by
  obtain ⟨k, hk⟩ : ∃ k : ℕ, e = -1074 + k := ⟨(e + 1074).toNat, by omega⟩
  induction k generalizing m e with
  | zero => exact ⟨.fin neg m e, (finite_fin _ _ _).mpr ⟨hm, he, he', .inr (by simpa using hk)⟩, val_fin _ _ _⟩
  | succ k ih =>
    by_cases h : 2 ^ 52 ≤ m
    · exact ⟨.fin neg m e, (finite_fin _ _ _).mpr ⟨hm, he, he', .inl h⟩, val_fin _ _ _⟩
    · obtain ⟨c, h1, h2⟩ := ih (2 * m) (e - 1) (by omega) (by push_cast at hk; omega) (by omega)
        (by push_cast at hk ⊢; omega)
      refine ⟨c, h1, h2.trans ?_⟩
      rw [zpow_sub_one₀ (by norm_num)]
      push_cast
      ring

end Sys2Proof.Machine
end

