-- ==== Sys2Proof/Laws/Ops.lean ====
section
/-! SUPPORT. What the shared operations do, once each; and what an instruction can do to the state at all. -/

namespace Sys2Proof.Machine

theorem State.guardedWrite_busy {s : State} (h : s.status.busy = true) (w : State → State) :
    s.guardedWrite w = { s with status := s.status.drop } := by
  simp [State.guardedWrite, h]

theorem State.guardedWrite_idle {s : State} (h : s.status.busy = false) (w : State → State) :
    s.guardedWrite w = w s := by
  simp [State.guardedWrite, h]

theorem State.issue_busy {s : State} (h : s.status.busy = true) (v : Word) (e : State → State) :
    s.issue v e = { s with status := s.status.drop } :=
  State.guardedWrite_busy h _

theorem State.issue_idle {s : State} (h : s.status.busy = false) (v : Word) (e : State → State) :
    s.issue v e = e { s with cmd := v } :=
  State.guardedWrite_idle h _

theorem State.engineTurn_none {s : State} (h : s.pend = none) : s.engineTurn = s := by
  simp [State.engineTurn, h]

theorem State.engineTurn_some {s : State} {p : Pending} (h : s.pend = some p) : s.engineTurn = s.complete p := by
  simp [State.engineTurn, h]

theorem State.issuePowMod_zero {s : State} (h : s.arg2 = 0#32) : s.issuePowMod = s.raiseError .invalidArgument :=
  if_pos h

theorem State.issuePowMod_pos {s : State} (h : s.arg2 ≠ 0#32) : s.issuePowMod = s.accept .powmod := if_neg h

theorem State.issueHexDigit_beyond {s : State} (h : Config.nMax < s.arg0.toNat) :
    s.issueHexDigit = s.raiseError .indexRange := if_pos h

theorem State.issueHexDigit_ok {s : State} (h : s.arg0.toNat ≤ Config.nMax) :
    s.issueHexDigit = s.accept .hexdigit := if_neg (Nat.not_lt.mpr h)

/-- A word is a command's exactly when its fields say so. -/
theorem legal_word_iff (v : Word) : ¬(cmdRsv v ≠ 0#28 ∨ 4 ≤ (cmdOp v).toNat) ↔ v.toNat < 4 := by
  simp only [cmdRsv, cmdOp, ne_eq, ← BitVec.toNat_inj, BitVec.extractLsb'_toNat, BitVec.toNat_ofNat]
  have := v.isLt
  simp only [Nat.shiftRight_eq_div_pow]
  omega

theorem cmdOp_toNat (v : Word) : (cmdOp v).toNat = v.toNat % 16 := by
  simp [cmdOp, BitVec.extractLsb'_toNat]

/-- What an instruction can do to the state: the whole list, each with the condition under which it happens. -/
inductive Effect (s : State) : State → Prop
  | read (v : Word) : Effect s { s with rdata := some v }
  | ignored : Effect s s
  | dropped (h : s.status.busy = true) : Effect s { s with status := s.status.drop }
  | arg0 (h : s.status.busy = false) (v : Word) : Effect s { s with arg0 := v }
  | arg1 (h : s.status.busy = false) (v : Word) : Effect s { s with arg1 := v }
  | arg2 (h : s.status.busy = false) (v : Word) : Effect s { s with arg2 := v }
  | nop (h : s.status.busy = false) : Effect s { s with cmd := 0 }
  | clear (h : s.status.busy = false) : Effect s { s with cmd := 3, status := s.status.clear }
  | illegal (h : s.status.busy = false) (v : Word) :
      Effect s { s with cmd := v, status := s.status.record .illegalCommand }
  | invalidArgument (h : s.status.busy = false) (h0 : s.arg2 = 0) :
      Effect s { s with cmd := 1, status := s.status.record .invalidArgument }
  | indexRange (h : s.status.busy = false) (hn : Config.nMax < s.arg0.toNat) :
      Effect s { s with cmd := 2, status := s.status.record .indexRange }
  | powmod (h : s.status.busy = false) (h0 : s.arg2 ≠ 0) :
      Effect s { s with cmd := 1, pend := some (s.capture .powmod), status := s.status.accept }
  | hexdigit (h : s.status.busy = false) (hn : s.arg0.toNat ≤ Config.nMax) :
      Effect s { s with cmd := 2, pend := some (s.capture .hexdigit), status := s.status.accept }

theorem issue_effect {s : State} {v : Word} {e : State → State}
    (he : s.status.busy = false → Effect s (e { s with cmd := v })) : Effect s (s.issue v e) := by
  cases h : s.status.busy
  · rw [State.issue_idle h]; exact he h
  · rw [State.issue_busy h]; exact .dropped h

theorem execNop_effect (s : State) : ∃ t, execNop s = .next t ∧ Effect s t :=
  ⟨_, rfl, issue_effect fun h => .nop h⟩

theorem execClear_effect (s : State) : ∃ t, execClear s = .next t ∧ Effect s t :=
  ⟨_, rfl, issue_effect fun h => .clear h⟩

theorem execIllegal_effect (w : Word) (s : State) : ∃ t, execIllegal w s = .next t ∧ Effect s t :=
  ⟨_, rfl, issue_effect fun h => .illegal h w⟩

theorem execPowmod_effect (s : State) : ∃ t, execPowmod s = .next t ∧ Effect s t := by
  refine ⟨_, rfl, issue_effect fun h => ?_⟩
  by_cases h0 : s.arg2 = 0#32
  · rw [State.issuePowMod_zero (s := { s with cmd := 1#32 }) h0]; exact .invalidArgument h h0
  · rw [State.issuePowMod_pos (s := { s with cmd := 1#32 }) h0]; exact .powmod h h0

theorem execHexdigit_effect (s : State) : ∃ t, execHexdigit s = .next t ∧ Effect s t := by
  refine ⟨_, rfl, issue_effect fun h => ?_⟩
  rcases Nat.lt_or_ge Config.nMax s.arg0.toNat with hn | hn
  · rw [State.issueHexDigit_beyond (s := { s with cmd := 2#32 }) hn]; exact .indexRange h hn
  · rw [State.issueHexDigit_ok (s := { s with cmd := 2#32 }) hn]; exact .hexdigit h hn

theorem execWrCmd_effect (v : Word) (s : State) : ∃ t, execWrCmd v s = .next t ∧ Effect s t := by
  unfold execWrCmd
  split
  · exact execIllegal_effect v s
  · split
    · exact execNop_effect s
    · split
      · exact execPowmod_effect s
      · split
        · exact execHexdigit_effect s
        · exact execClear_effect s

theorem argWrite_effect {s : State} {w : State → State} (hw : s.status.busy = false → Effect s (w s)) :
    Effect s (s.guardedWrite w) := by
  cases h : s.status.busy
  · rw [State.guardedWrite_idle h]; exact hw h
  · rw [State.guardedWrite_busy h]; exact .dropped h

/-- Every instruction answers a next state, and has one of the listed effects. -/
theorem exec_effect (i : Instr) (s : State) : ∃ t, exec i s = .next t ∧ Effect s t := by
  cases i with
  | rdCmd => exact ⟨_, rfl, .read _⟩
  | rdStatus => exact ⟨_, rfl, .read _⟩
  | rdArg0 => exact ⟨_, rfl, .read _⟩
  | rdArg1 => exact ⟨_, rfl, .read _⟩
  | rdArg2 => exact ⟨_, rfl, .read _⟩
  | rdResult => exact ⟨_, rfl, .read _⟩
  | rdRsv6 => exact ⟨_, rfl, .read _⟩
  | rdRsv7 => exact ⟨_, rfl, .read _⟩
  | wrCmd v => exact execWrCmd_effect v s
  | wrStatus v => exact ⟨_, rfl, .ignored⟩
  | wrArg0 v => exact ⟨_, rfl, argWrite_effect fun h => .arg0 h v⟩
  | wrArg1 v => exact ⟨_, rfl, argWrite_effect fun h => .arg1 h v⟩
  | wrArg2 v => exact ⟨_, rfl, argWrite_effect fun h => .arg2 h v⟩
  | wrResult v => exact ⟨_, rfl, .ignored⟩
  | wrRsv6 v => exact ⟨_, rfl, .ignored⟩
  | wrRsv7 v => exact ⟨_, rfl, .ignored⟩
  | nop => exact execNop_effect s
  | powmod => exact execPowmod_effect s
  | hexdigit => exact execHexdigit_effect s
  | clear => exact execClear_effect s
  | illegal w => exact execIllegal_effect w s

end Sys2Proof.Machine
end

