-- ==== Sys2Proof/Laws/PerInstr.lean ====
section
/-! SUPPORT. Per instruction: its encoding is that of its row of spec/opcode_table.json. -/

namespace Sys2Proof.Laws.EncodesItsRow

/-- The `match` value of an instruction's row: `ctl` of a transaction, the whole word of a command. The row of ILLEGAL has
none of its own: any other word. -/
def rowMatch : Instr → Nat
  | .rdCmd => 0x0
  | .rdStatus => 0x1
  | .rdArg0 => 0x2
  | .rdArg1 => 0x3
  | .rdArg2 => 0x4
  | .rdResult => 0x5
  | .rdRsv6 => 0x6
  | .rdRsv7 => 0x7
  | .wrCmd _ => 0x8
  | .wrStatus _ => 0x9
  | .wrArg0 _ => 0xA
  | .wrArg1 _ => 0xB
  | .wrArg2 _ => 0xC
  | .wrResult _ => 0xD
  | .wrRsv6 _ => 0xE
  | .wrRsv7 _ => 0xF
  | .nop => 0x00000000
  | .powmod => 0x00000001
  | .hexdigit => 0x00000002
  | .clear => 0x00000003
  | .illegal w => w.toNat

/-- The encoding of `i` matches its row. -/
def Statement (i : Instr) : Prop :=
  match encode i with
  | .bus t => (busCtl t).toNat = rowMatch i
  | .cmd w => w.toNat = rowMatch i

theorem rdCmd : Statement .rdCmd := rfl
theorem rdStatus : Statement .rdStatus := rfl
theorem rdArg0 : Statement .rdArg0 := rfl
theorem rdArg1 : Statement .rdArg1 := rfl
theorem rdArg2 : Statement .rdArg2 := rfl
theorem rdResult : Statement .rdResult := rfl
theorem rdRsv6 : Statement .rdRsv6 := rfl
theorem rdRsv7 : Statement .rdRsv7 := rfl
theorem wrCmd (v : Word) : Statement (.wrCmd v) := by simp [Statement, encode, rowMatch]
theorem wrStatus (v : Word) : Statement (.wrStatus v) := by simp [Statement, encode, rowMatch]
theorem wrArg0 (v : Word) : Statement (.wrArg0 v) := by simp [Statement, encode, rowMatch]
theorem wrArg1 (v : Word) : Statement (.wrArg1 v) := by simp [Statement, encode, rowMatch]
theorem wrArg2 (v : Word) : Statement (.wrArg2 v) := by simp [Statement, encode, rowMatch]
theorem wrResult (v : Word) : Statement (.wrResult v) := by simp [Statement, encode, rowMatch]
theorem wrRsv6 (v : Word) : Statement (.wrRsv6 v) := by simp [Statement, encode, rowMatch]
theorem wrRsv7 (v : Word) : Statement (.wrRsv7 v) := by simp [Statement, encode, rowMatch]
theorem nop : Statement .nop := by simp [Statement, encode, rowMatch]
theorem powmod : Statement .powmod := by simp [Statement, encode, rowMatch]
theorem hexdigit : Statement .hexdigit := by simp [Statement, encode, rowMatch]
theorem clear : Statement .clear := by simp [Statement, encode, rowMatch]
theorem illegal (w : Word) : Statement (.illegal w) := by simp [Statement, encode, rowMatch]

end Sys2Proof.Laws.EncodesItsRow
end

