-- ==== Sys2Proof/Laws/Step.lean ====
section
/-! SUPPORT. What a step can do, by the agent that takes it. -/

namespace Sys2Proof.Machine

@[simp] theorem Pins.transaction_rst (we : Bool) (a : BitVec 3) (v : Word) : (Pins.transaction we a v).rst = false := rfl
@[simp] theorem Pins.transaction_sel (we : Bool) (a : BitVec 3) (v : Word) : (Pins.transaction we a v).sel = true := rfl

/-- A step that faces a turn takes it, on the state as the step begins. -/
theorem step_facing (s : State) (t : Turn) : step (s.facing t) = takeTurn t { s with rdata := none } := rfl

/-- A step that faces a write to CMD runs WR.CMD. -/
theorem step_writeCmd (s : State) (v : Word) :
    step (s.facing (writeTurn 0 v)) = exec (.wrCmd v) { s with rdata := none } := by
  have h : decode (Pins.code (Pins.transaction true 0 v)) = .wrCmd v := by
    have hc : packBus true 0 v = (0x8#4 ++ v : BitVec 36) := by
      rw [packBus, show (BitVec.ofBool true ++ (0 : BitVec 3)) = 0x8#4 by decide]
    simp only [Pins.code, Pins.transaction, decode, hc, decodeBus, busCtl_append, busWdata_append]
    rfl
  rw [step_facing]
  simp only [writeTurn, takeTurn, pinsTurn, Pins.transaction_rst, Pins.transaction_sel, Bool.false_eq_true, if_false,
    if_true, h]

theorem step_cons {s : State} {t : Turn} {rest : List Turn} (h : s.turns = t :: rest) :
    step s = takeTurn t (s.beginStep rest) := by
  simp [step, runStep, h]

theorem step_nil {s : State} (h : s.turns = []) : step s = .next (s.beginStep []).engineTurn := by
  simp [step, runStep, h, takeTurn]

theorem runSteps_zero (s : State) : runSteps 0 s = .next s := rfl

/-- One step of any machine, then the rest. -/
theorem coreRun_succ (M : Host.Core) (k : Nat) (s : M.State) :
    M.run (k + 1) s = match M.step s with
      | .next s' => M.run k s'
      | .fault r => .fault r
      | .refused r => .refused r := rfl

theorem runSteps_succ {s t : State} (h : step s = .next t) (k : Nat) : runSteps (k + 1) s = runSteps k t := by
  refine (coreRun_succ Sys2Proof.core k s).trans ?_
  rw [show Sys2Proof.core.step s = .next t from h]
  rfl

/-- A run of at least one step that answers a next state began with a step that did. -/
theorem runSteps_succ_next {s t : State} {k : Nat} (h : runSteps (k + 1) s = .next t) : ∃ s', step s = .next s' := by
  replace h := (coreRun_succ Sys2Proof.core k s).symm.trans h
  cases hs : Sys2Proof.core.step s with
  | next s' => exact ⟨s', hs⟩
  | fault r => rw [hs] at h; cases h
  | refused r => rw [hs] at h; cases h

theorem runSteps_add {s t : State} {k : Nat} (h : runSteps k s = .next t) (n : Nat) :
    runSteps (k + n) s = runSteps n t := by
  induction k generalizing s with
  | zero => cases h; rw [Nat.zero_add]
  | succ k ih =>
    obtain ⟨s', hs⟩ := runSteps_succ_next h
    rw [Nat.add_right_comm, runSteps_succ hs]
    exact ih (by rwa [runSteps_succ hs] at h)

/-- A platform access that reaches CORE is a transaction: never a reset. -/
theorem PlatformAccess.toPins_ok {a : PlatformAccess} {p : Pins} (h : a.toPins = .ok p) :
    ∃ we addr v, p = Pins.transaction we addr v := by
  cases a with
  | read addr size =>
    simp only [PlatformAccess.toPins] at h
    split at h
    · cases h; exact ⟨_, _, _, rfl⟩
    · cases h
  | write addr bytes =>
    simp only [PlatformAccess.toPins] at h
    split at h
    · cases h; exact ⟨_, _, _, rfl⟩
    · cases h

/-- A turn of the host at the ports always answers a next state, with one of the listed effects. -/
theorem takeTurn_host {u : Turn} (hu : u.isHost = true) (s : State) : ∃ t, takeTurn u s = .next t ∧ Effect s t := by
  cases u with
  | engine => simp [Turn.isHost] at hu
  | platform a => simp [Turn.isHost] at hu
  | pins p =>
    have hr : p.rst = false := by simpa [Turn.isHost] using hu
    simp only [takeTurn, pinsTurn, hr, Bool.false_eq_true, if_false]
    split
    · exact exec_effect _ _
    · exact ⟨_, rfl, .ignored⟩

/-- A turn that answers a next state is the engine's, a reset, or the host's. -/
theorem takeTurn_cases {u : Turn} {s t : State} (h : takeTurn u s = .next t) :
    (u = .engine ∧ t = s.engineTurn) ∨ (u.isReset = true ∧ t = s.resetCore) ∨ (u ≠ .engine ∧ Effect s t) := by
  have pins : ∀ p : Pins, pinsTurn p s = .next t →
      (p.rst = true ∧ p.sel = false ∧ t = s.resetCore) ∨ Effect s t := by
    intro p hp
    unfold pinsTurn at hp
    cases hr : p.rst <;> cases hs : p.sel <;> simp only [hr, hs, if_true, if_false, Bool.false_eq_true] at hp
    · cases hp; exact .inr .ignored
    · obtain ⟨t', ht', he⟩ := exec_effect (decode p.code) s
      rw [ht'] at hp; cases hp; exact .inr he
    · cases hp; exact .inl ⟨rfl, rfl, rfl⟩
    · cases hp
  cases u with
  | engine => simp only [takeTurn] at h; cases h; exact .inl ⟨rfl, rfl⟩
  | pins p =>
    rcases pins p h with ⟨hr, hs, ht⟩ | he
    · exact .inr (.inl ⟨by simp [Turn.isReset, hr, hs], ht⟩)
    · exact .inr (.inr ⟨by simp, he⟩)
  | platform a =>
    simp only [takeTurn] at h
    split at h
    · rename_i p hp
      obtain ⟨we, addr, v, rfl⟩ := PlatformAccess.toPins_ok hp
      rcases pins _ h with ⟨hr, -, -⟩ | he
      · simp at hr
      · exact .inr (.inr ⟨by simp, he⟩)
    · cases h

/-- A step that answers a next state is one of: the engine's turn, a reset, or a host's effect. -/
theorem step_cases {s t : State} (h : step s = .next t) :
    (∃ rest, (s.turns = [] ∧ rest = [] ∨ s.turns = .engine :: rest) ∧ t = (s.beginStep rest).engineTurn) ∨
    (∃ u rest, s.turns = u :: rest ∧ u.isReset = true ∧ t = (s.beginStep rest).resetCore) ∨
    (∃ u rest, s.turns = u :: rest ∧ u ≠ .engine ∧ Effect (s.beginStep rest) t) := by
  cases ht : s.turns with
  | nil => rw [step_nil ht] at h; cases h; exact .inl ⟨[], .inl ⟨rfl, rfl⟩, rfl⟩
  | cons u rest =>
    rw [step_cons ht] at h
    rcases takeTurn_cases h with ⟨rfl, rfl⟩ | ⟨hu, rfl⟩ | ⟨hu, he⟩
    · exact .inl ⟨rest, .inr rfl, rfl⟩
    · exact .inr (.inl ⟨u, rest, rfl, hu, rfl⟩)
    · exact .inr (.inr ⟨u, rest, rfl, hu, he⟩)

/-- An operation at the ports is a bus transaction, never one of the command words by itself. -/
theorem Turn.operation_bus {u : Turn} {i : Instr} (h : u.operation = some i) : ∃ b, i = decodeBus b := by
  have pins : ∀ p : Pins, p.operation = some i → ∃ b, i = decodeBus b := by
    intro p hp
    unfold Pins.operation at hp
    split at hp
    · cases hp; exact ⟨_, rfl⟩
    · cases hp
  cases u with
  | engine => cases h
  | pins p => exact pins p h
  | platform a =>
    simp only [Turn.operation] at h
    split at h
    · exact pins _ h
    · cases h

/-- What the ports hold, when the step answers a next state: a reset, an operation that runs, or nothing. -/
theorem pinsTurn_cases {p : Pins} {s t : State} (h : pinsTurn p s = .next t) :
    (p.rst = true ∧ p.sel = false ∧ t = s.resetCore) ∨ (∃ i, p.operation = some i ∧ exec i s = .next t) ∨
    (p.operation = none ∧ t = s) := by
  unfold pinsTurn at h
  cases hr : p.rst <;> cases hs : p.sel <;> simp only [hr, hs, if_true, if_false, Bool.false_eq_true] at h
  · cases h; exact .inr (.inr ⟨by simp [Pins.operation, hs], rfl⟩)
  · exact .inr (.inl ⟨_, by simp [Pins.operation, hr, hs], h⟩)
  · cases h; exact .inl ⟨rfl, rfl, rfl⟩
  · cases h

/-- A step that answers a next state, with the operation it ran: the engine's turn, a reset, an operation of the host, or
a turn in which the ports present nothing. -/
theorem step_cases_operation {s t : State} (h : step s = .next t) :
    (∃ rest, (s.turns = [] ∧ rest = [] ∨ s.turns = .engine :: rest) ∧ t = (s.beginStep rest).engineTurn) ∨
    (∃ u rest, s.turns = u :: rest ∧ u.isReset = true ∧ t = (s.beginStep rest).resetCore) ∨
    (∃ u rest i, s.turns = u :: rest ∧ u.operation = some i ∧ exec i (s.beginStep rest) = .next t) ∨
    (∃ u rest, s.turns = u :: rest ∧ u.operation = none ∧ t = s.beginStep rest) := by
  cases ht : s.turns with
  | nil => rw [step_nil ht] at h; cases h; exact .inl ⟨[], .inl ⟨rfl, rfl⟩, rfl⟩
  | cons u rest =>
    rw [step_cons ht] at h
    cases u with
    | engine => cases h; exact .inl ⟨rest, .inr rfl, rfl⟩
    | pins p =>
      rcases pinsTurn_cases h with ⟨hr, hs, he⟩ | ⟨i, hi, he⟩ | ⟨hn, he⟩
      · exact .inr (.inl ⟨_, rest, rfl, by simp [Turn.isReset, hr, hs], he⟩)
      · exact .inr (.inr (.inl ⟨_, rest, i, rfl, hi, he⟩))
      · exact .inr (.inr (.inr ⟨_, rest, rfl, hn, he⟩))
    | platform a =>
      simp only [takeTurn] at h
      split at h
      · rename_i p hp
        have ho : Turn.operation (.platform a) = p.operation := by simp only [Turn.operation, hp]
        rcases pinsTurn_cases h with ⟨hr, -, -⟩ | ⟨i, hi, he⟩ | ⟨hn, he⟩
        · obtain ⟨we, addr, v, rfl⟩ := PlatformAccess.toPins_ok hp
          simp at hr
        · exact .inr (.inr (.inl ⟨_, rest, i, rfl, ho.trans hi, he⟩))
        · exact .inr (.inr (.inr ⟨_, rest, rfl, ho.trans hn, he⟩))
      · cases h

end Sys2Proof.Machine
end

