-- ==== Sys2Proof/Tests/Slice0.lean ====
section
/-! SUPPORT. The model's own tests. Expected values are those of the encoding tables (R48, R50) and of
95_test_vectors.md, whose row is named; and a witness of the hypotheses of every statement that has some. -/

namespace Sys2Proof.Tests

open Sys2Proof Sys2Proof.Machine

/-! ### Helpers -/

/-- A field of the next state, where there is one. -/
def seen {α : Type} (r : Result) (f : State → α) : Option α :=
  match r with
  | .next t => some (f t)
  | .fault _ => none
  | .refused _ => none

/-- What a read of STATUS returns. -/
def statusWord (s : State) : Word := s.readReg .status

/-- The end state of program P1. -/
def ended : State :=
  { State.reset with
    cmd := 1, arg0 := 16, arg1 := 5, arg2 := 17, result := 16
    status := { busy := false, done := true, err := 0, busyErr := false } }

/-- POWMOD(16, 5, 17) in flight (the set-up of B17 to B19). -/
def flying : State :=
  { State.reset with
    cmd := 1, arg0 := 16, arg1 := 5, arg2 := 17
    pend := some { op := .powmod, a0 := 16, a1 := 5, a2 := 17 }
    status := { busy := true, done := false, err := 0, busyErr := false } }

/-- HEXDIGIT of one index in flight. -/
def digitFlying (n : Word) : State :=
  { State.reset with
    cmd := 2, arg0 := n
    pend := some { op := .hexdigit, a0 := n, a1 := 0, a2 := 0 }
    status := { busy := true, done := false, err := 0, busyErr := false } }

/-- STATUS = 0x00000022 after B7. -/
def afterB7 : State :=
  { State.reset with cmd := 4, status := { busy := false, done := true, err := 2, busyErr := false } }

/-! ### WellFormed -/

theorem test_wf_refuses_a_command_as_illegal_word :
    (Instr.illegal 0x00000000).wf = false ∧ (Instr.illegal 0x00000001).wf = false ∧
    (Instr.illegal 0x00000002).wf = false ∧ (Instr.illegal 0x00000003).wf = false := by decide

theorem test_wf_admits_the_bounds_of_illegal :
    (Instr.illegal 0x00000004).wf = true ∧ (Instr.illegal 0x0000000F).wf = true ∧
    (Instr.illegal 0x00000010).wf = true ∧ (Instr.illegal 0xFFFFFFFF).wf = true := by decide

theorem test_canonical_refuses_a_read_with_wdata :
    Code.canonical (.bus 0b010100000000000000000000000000000001#36) = false := by decide

theorem test_fp_wf_refuses_a_second_form_and_a_wide_one :
    Fp.wf Config.fp (.fin false 1 0) = false ∧ Fp.wf Config.fp (.fin false (2 ^ 53) 0) = false ∧
    Fp.wf Config.fp (.fin false (2 ^ 52) 972) = false ∧ Fp.wf Config.fp (.fin false (2 ^ 52) 971) = true := by decide

/-! ### Decoding: the words written out from R47, R48 and R50 -/

theorem test_decode_rdCmd : decode (.bus 0b000000000000000000000000000000000000#36) = .rdCmd := by decide
theorem test_decode_rdStatus : decode (.bus 0b000100000000000000000000000000000000#36) = .rdStatus := by decide
theorem test_decode_rdArg0 : decode (.bus 0b001000000000000000000000000000000000#36) = .rdArg0 := by decide
theorem test_decode_rdArg1 : decode (.bus 0b001100000000000000000000000000000000#36) = .rdArg1 := by decide
theorem test_decode_rdArg2 : decode (.bus 0b010000000000000000000000000000000000#36) = .rdArg2 := by decide
theorem test_decode_rdResult : decode (.bus 0b010100000000000000000000000000000000#36) = .rdResult := by decide
theorem test_decode_rdRsv6 : decode (.bus 0b011000000000000000000000000000000000#36) = .rdRsv6 := by decide
theorem test_decode_rdRsv7 : decode (.bus 0b011111111111111111111111111111111111#36) = .rdRsv7 := by decide
theorem test_decode_wrCmd : decode (.bus 0b100000000000000000000000000000000001#36) = .wrCmd 1 := by decide
theorem test_decode_wrStatus :
    decode (.bus 0b100111111111111111111111111111111111#36) = .wrStatus 0xFFFFFFFF := by decide
theorem test_decode_wrArg0 : decode (.bus 0b101000000000000000000000000000010000#36) = .wrArg0 16 := by decide
theorem test_decode_wrArg1 : decode (.bus 0b101100000000000000000000000000000101#36) = .wrArg1 5 := by decide
theorem test_decode_wrArg2 : decode (.bus 0b110000000000000000000000000000010001#36) = .wrArg2 17 := by decide
theorem test_decode_wrResult : decode (.bus 0b110100000000000000000000000000000101#36) = .wrResult 5 := by decide
theorem test_decode_wrRsv6 :
    decode (.bus 0b111010000000000000000000000000000000#36) = .wrRsv6 0x80000000 := by decide
theorem test_decode_wrRsv7 : decode (.bus 0b111100000000000000000000000000000001#36) = .wrRsv7 1 := by decide
theorem test_decode_nop : decode (.cmd 0b00000000000000000000000000000000#32) = .nop := by decide
theorem test_decode_powmod : decode (.cmd 0b00000000000000000000000000000001#32) = .powmod := by decide
theorem test_decode_hexdigit : decode (.cmd 0b00000000000000000000000000000010#32) = .hexdigit := by decide
theorem test_decode_clear : decode (.cmd 0b00000000000000000000000000000011#32) = .clear := by decide
theorem test_decode_illegal :
    decode (.cmd 0b00000000000000000000000000000100#32) = .illegal 4 ∧
    decode (.cmd 0b00000000000000000000000000010000#32) = .illegal 16 ∧
    decode (.cmd 0b10000000000000000000000000000001#32) = .illegal 0x80000001 := by decide

/-- The opcode table's numbering: `ctl` at bits 3:0, `wdata` at bits 35:4, a command word at bits 31:0. -/
theorem test_decodeTableWord :
    decodeTableWord 8 0x0 = some .rdCmd ∧ decodeTableWord 8 0x5 = some .rdResult ∧
    decodeTableWord 8 0x8 = some (.wrCmd 0) ∧ decodeTableWord 8 0xF = some (.wrRsv7 0) ∧
    decodeTableWord 40 0x11C = some (.wrArg2 17) ∧ decodeTableWord 32 2 = some .hexdigit ∧
    decodeTableWord 32 0x80000001 = some (.illegal 0x80000001) ∧ decodeTableWord 32 (2 ^ 32) = none := by decide

/-- A word presented to the machine right after reset runs in the very next step. -/
theorem test_withFetchWord :
    seen (step (State.reset.withFetchWord 40 0xFFFFFFFFA)) State.arg0 = some 0xFFFFFFFF ∧
    seen (step (State.reset.withFetchWord 8 1)) State.rdata = some (some 0) ∧
    seen (step (State.reset.withFetchWord 32 5)) statusWord = some 0x22 := by decide

/-! ### Transactions, one step each -/

theorem test_rdCmd : seen (exec .rdCmd ended) State.rdata = some (some 0x00000001) := by decide
theorem test_rdStatus_B17 : seen (exec .rdStatus flying) State.rdata = some (some 0x00000001) := by decide
theorem test_rdStatus_B7 : seen (exec .rdStatus afterB7) State.rdata = some (some 0x00000022) := by decide
theorem test_rdArg0 : seen (exec .rdArg0 ended) State.rdata = some (some 0x00000010) := by decide
theorem test_rdArg1 : seen (exec .rdArg1 ended) State.rdata = some (some 0x00000005) := by decide
theorem test_rdArg2 : seen (exec .rdArg2 ended) State.rdata = some (some 0x00000011) := by decide
theorem test_rdResult_B17_stale : seen (exec .rdResult flying) State.rdata = some (some 0x00000000) := by decide
theorem test_rdResult : seen (exec .rdResult ended) State.rdata = some (some 0x00000010) := by decide
theorem test_rdRsv6_B1 : seen (exec .rdRsv6 ended) State.rdata = some (some 0x00000000) := by decide
theorem test_rdRsv7 : seen (exec .rdRsv7 ended) State.rdata = some (some 0x00000000) := by decide

theorem test_wrCmd_B9 :
    seen (exec (.wrCmd 0x80000001) State.reset) (fun t => (statusWord t, t.result, t.pend)) =
      some (0x00000022, 0, none) := by decide
theorem test_wrCmd_E6 :
    seen (exec (.wrCmd 0x00000012) { State.reset with arg0 := 0x20000000 }) (fun t => (statusWord t, t.cmd)) =
      some (0x00000022, 0x00000012) := by decide
theorem test_wrStatus_B3 : seen (exec (.wrStatus 0xFFFFFFFF) State.reset) statusWord = some 0 := by decide
theorem test_wrArg0_B5 : seen (exec (.wrArg0 0xFFFFFFFF) State.reset) State.arg0 = some 0xFFFFFFFF := by decide
theorem test_wrArg0_B18 :
    seen (exec (.wrArg0 3) flying) (fun t => (statusWord t, t.arg0)) = some (0x00000101, 16) := by decide
theorem test_wrArg1 : seen (exec (.wrArg1 0xFFFFFFFF) ended) (fun t => (t.arg0, t.arg1, t.arg2)) =
    some (16, 0xFFFFFFFF, 17) := by decide
theorem test_wrArg1_E5 :
    seen (exec (.wrArg1 3) flying) (fun t => (statusWord t, t.arg1)) = some (0x00000101, 5) := by decide
theorem test_wrArg2 : seen (exec (.wrArg2 0) ended) (fun t => (statusWord t, t.arg2)) = some (0x00000002, 0) := by decide
theorem test_wrArg2_busy :
    seen (exec (.wrArg2 0) flying) (fun t => (statusWord t, t.arg2)) = some (0x00000101, 17) := by decide
theorem test_wrResult_B4 : seen (exec (.wrResult 5) State.reset) State.result = some 0 := by decide
theorem test_wrRsv6_busy : seen (exec (.wrRsv6 0xFFFFFFFF) flying) statusWord = some 0x00000001 := by decide
theorem test_wrRsv7 : seen (exec (.wrRsv7 0xFFFFFFFF) flying) statusWord = some 0x00000001 := by decide

/-! ### Commands, one step each -/

theorem test_nop_B11 : seen (exec .nop afterB7) (fun t => (statusWord t, t.cmd)) = some (0x00000022, 0) := by decide
theorem test_powmod_B13 :
    seen (exec .powmod State.reset) (fun t => (statusWord t, t.result, t.pend)) = some (0x00000012, 0, none) := by decide
theorem test_powmod_B20 :
    seen (exec .powmod { ended with status := { busy := false, done := true, err := 0, busyErr := true } }) statusWord =
      some 0x00000101 := by decide
theorem test_hexdigit_B14 :
    seen (exec .hexdigit { State.reset with arg0 := 0x20000000 }) statusWord = some 0x00000032 := by decide
theorem test_hexdigit_B15 :
    seen (exec .hexdigit { State.reset with arg0 := 0x1FFFFFFF }) statusWord = some 0x00000001 := by decide
theorem test_clear_B12 : seen (exec .clear afterB7) statusWord = some 0 := by decide
theorem test_clear_B19 : seen (exec .clear flying) (fun t => (statusWord t, t.pend.isSome)) = some (0x00000101, true) := by
  decide
theorem test_illegal_B7 :
    seen (exec (.illegal 4) State.reset) (fun t => (statusWord t, t.cmd)) = some (0x00000022, 4) := by decide
theorem test_illegal_E4 :
    seen (exec (.illegal 7) { State.reset with
      cmd := 1, status := { busy := false, done := true, err := 1, busyErr := false } }) statusWord =
      some 0x00000022 := by decide

/-! ### Completion and reset -/

theorem test_completion_B19 :
    seen (step { flying with status := { busy := true, done := false, err := 0, busyErr := true } })
      (fun t => (t.result, statusWord t, t.pend)) = some (16, 0x00000102, none) := by decide +kernel

theorem test_completion_P2_last : seen (step (digitFlying 3)) (fun t => (t.result, statusWord t)) =
    some (0xF, 0x00000002) := by decide +kernel

theorem test_reset_B23 :
    seen (step (flying.facing (.pins (resetPins true 7 0xFFFFFFFF))))
      (fun t => (t.cmd, statusWord t, t.arg0, t.result, t.pend)) = some (0, 0, 0, 0, none) := by decide

/-! ### MODEXP -/

/-- Rows of section 2.2. -/
theorem test_modexp_rows :
    modExp 0x10 0x5 0x11 = 0x10 ∧ modExp 0x2 0xA 0x3E8 = 0x18 ∧ modExp 0 0 5 = 1 ∧ modExp 0 0 1 = 0 ∧
    modExp 7 0 1 = 0 ∧ modExp 0 3 5 = 0 ∧ modExp 0x7B 1 0x64 = 0x17 ∧
    modExp 0xFFFFFFFE 2 0xFFFFFFFF = 1 ∧ modExp 0xFFFFFFFF 0xFFFFFFFF 0xFFFFFFFF = 0 := by decide +kernel

theorem test_modexp_wide_rows :
    modExp 0xFFFFFFFE 0xFFFFFFFF 0xFFFFFFFF = 0xFFFFFFFE ∧ modExp 3 0xFFFFFFFF 0x3B9ACA07 = 0x26A84C01 ∧
    modExp 7 0xD 0xFFFFFFFB = 0x8F08F955 ∧ modExp 0x12345678 0x9ABCDEF0 0xFFFFFFFE = 0xB85BC758 ∧
    modExp 2 0x80000000 0xFFFFFFFF = 1 := by decide +kernel

/-- Section 2.3: the registers r, b and e after each of the three iterations. -/
theorem test_modexp_trace :
    (let d := (modexpInit 16 5 17 ModexpRegs.zero).iterate; (d.r, d.b, d.e)) = (16, 1, 2) ∧
    (let d := (modexpInit 16 5 17 ModexpRegs.zero).iterate.iterate; (d.r, d.b, d.e)) = (16, 1, 1) ∧
    (let d := (modexpInit 16 5 17 ModexpRegs.zero).iterate.iterate.iterate; (d.r, d.b, d.e)) = (16, 1, 0) := by
  decide +kernel

/-! ### BBPX -/

/-- Section 2.4: F, T and S at m = 1, C = 4, and F at m = 2, C = 1. -/
theorem test_series_rows :
    finiteFormula 4 1 = .fin false 0x10000000000000 (-54) ∧
    tailFormula 4 1 = .fin false 0x162bbe4cfc1592 (-60) ∧
    seriesFormula 4 1 = .fin false 0x1058aef933f056 (-54) ∧
    finiteFormula 1 2 = .fin false 0x1c71c71c71c71c (-56) := by decide +kernel

/-- Section 2.4, m = 4 with C = 6; section 2.5, raw at m = 1. -/
theorem test_series_and_raw :
    seriesFormula 6 4 = .fin false 0x1b6f7fc21e82a0 (-52) ∧
    rawFormula 1 = .fin true 0x1b7812af210202 (-53) := by decide +kernel

/-- Section 2.6: raw, x, y and the digit. -/
theorem test_extraction_rows :
    digitOfRaw (.fin false 0 (-1074)) = 0 ∧ digitOfRaw (.fin true 0 (-1074)) = 0 ∧
    digitOfRaw (.fin true (2 ^ 52) (-52)) = 0 ∧ digitOfRaw (.fin true (2 ^ 52) (-53)) = 8 ∧
    digitOfRaw (.fin false (2 ^ 53 - 1) (-53)) = 0 ∧ digitOfRaw (.fin true (2 ^ 52) (-112)) = 0 ∧
    digitOfRaw (.fin false 0x18800000000000 (-51)) = 1 ∧ digitOfRaw (.fin true 0x18800000000000 (-51)) = 15 := by
  decide +kernel

/-- Section 2.7: the first digits, "243f6a88". -/
theorem test_first_digits : [0, 1, 2, 3, 4, 5].map hexDigitAt = [2, 4, 3, 0xF, 6, 0xA] := by decide +kernel

/-- IEEE 754: overflow to an infinity, a tie to even, a subnormal, the sign of an exact zero sum, 0/0. -/
theorem test_fp_corners :
    fpOps.fadd (.fin false (2 ^ 53 - 1) 971) (.fin false (2 ^ 52) 971) = .inf false ∧
    fpOps.fadd (.fin false (2 ^ 52) 0) (.fin false (2 ^ 52) (-53)) = .fin false (2 ^ 52) 0 ∧
    fpOps.fdiv (.fin false 3 (-1074)) (fpOps.toF 2) = .fin false 2 (-1074) ∧
    fpOps.fsub (fpOps.toF 1) (fpOps.toF 1) = .fin false 0 (-1074) ∧
    fpOps.fdiv (fpOps.toF 0) (fpOps.toF 0) = .nan := by decide +kernel

/-! ### Stops and the host's listing -/

theorem test_transaction_during_reset_stops :
    (match step (State.reset.facing (.pins { rst := true, sel := true, we := false, addr := 0, wdata := 0 })) with
      | .next _ => false | .fault .transactionDuringReset => true | .refused _ => false) = true := by decide

/-- What a turn presents (R47, R125): a write, nothing in a reset or with `sel` = 0. -/
theorem test_turn_operation :
    (writeTurn 3 7).operation = some (.wrArg1 7) ∧ (Turn.pins (resetPins true 3 7)).operation = none ∧
    (Turn.pins { rst := false, sel := false, we := true, addr := 3, wdata := 7 }).operation = none ∧
    Turn.engine.operation = none := by decide

theorem test_half_word_is_refused :
    (match step (State.reset.facing (.platform (.read 0 2))) with
      | .next _ => false | .fault _ => false | .refused r => decide (r = .notWholeWord)) = true := by decide

/-- Program P1, lines 3 and 7. -/
theorem test_listing : listing (0xC#4 ++ 17#32) = "C 00000011" ∧ listing (0x5#4 ++ 0#32) = "5 00000000" := by
  decide +kernel

theorem test_transcribe_P1_line4 :
    (transcribe 4 [.wr "CMD" (.mnemonic "POWMOD"), .rd "RESULT"]).toOption =
      some [.transaction (0x8#4 ++ 1#32), .transaction (0x5#4 ++ 0#32)] := by decide +kernel

/-- Program P1, lines 5 to 7 (as acts 1 to 3, the label being act 0): `BR BUSY` goes back on 0x00000001 and falls through on 0x00000002. -/
theorem test_host_branch :
    let prog : List HostAct := [.label (.named "L1"), .transaction (0x1#4 ++ 0#32), .br (.bitSet 0) (.named "L1"),
      .transaction (0x5#4 ++ 0#32)]
    (hostStep prog { next := 2, last := 1 } flying).map Prod.fst = some { next := 2, last := 0x00000001 } ∧
    (hostStep prog { next := 2, last := 2 } ended).map Prod.fst = some { next := 4, last := 0x00000010 } ∧
    (hostStep prog { next := 4, last := 0 } ended).isNone = true := by decide +kernel

theorem test_transcribe_expands_and_refuses :
    (transcribe 1 [.powmod (.num 16) (.num 5) (.num 0xFFFFFFFF)]).toOption.map List.length = some 8 ∧
    (transcribe 1 [.powmod (.num 16) (.num 0x100000000) (.num 1)]).toOption = none ∧
    (transcribe 1 [.rd "PC"]).toOption = none ∧ (transcribe 1 [.wr "CMD" (.mnemonic "MUL")]).toOption = none := by
  decide +kernel

/-! ### Witnesses: each statement's hypotheses are met together -/

theorem inv_reset : Inv State.reset :=
  ⟨by decide, by decide, by decide, by decide, nofun, nofun, nofun⟩

theorem inv_ended : Inv ended := ⟨by decide, by decide, by decide, by decide, nofun, nofun, nofun⟩

theorem inv_flying : Inv flying :=
  ⟨by decide, by decide, by decide, by decide, fun _ h => by (cases h; decide), fun _ h _ => by (cases h; decide),
    fun _ h h' => by (cases h; cases h')⟩

/-- HEXDIGIT in flight at the largest index. -/
theorem inv_digitFlying : Inv (digitFlying 0x1FFFFFFF) :=
  ⟨by decide, by decide, by decide, by decide, fun _ h => by (cases h; decide), fun _ h h' => by (cases h; cases h'),
    fun _ h _ => by (cases h; decide)⟩

theorem witness_DecodeInvertsEncode :
    (Instr.illegal 4).wf = true ∧ (Instr.wrCmd 0xFFFFFFFF).wf = true ∧ Instr.nop.wf = true := by decide

theorem witness_EncodeInvertsDecode :
    Code.canonical (.bus 0x700000000#36) = true ∧ Code.canonical (.bus 0xFFFFFFFFF#36) = true ∧
    Code.canonical (.cmd 0xFFFFFFFF#32) = true := by decide

theorem witness_IllegalWordsAreThoseOfRsvOrOp :
    State.reset.status.busy = false ∧ (cmdRsv 0x00000010 ≠ 0 ∨ 4 ≤ (cmdOp 0x00000010).toNat) ∧
    (cmdRsv 0x00000004 ≠ 0 ∨ 4 ≤ (cmdOp 0x00000004).toNat) := by decide

theorem witness_ReadCmdReturnsTheLastAcceptedWord : isCmdWrite .rdStatus = false := rfl

theorem witness_ReadStatusReturnsItsFields :
    seen (exec .rdStatus ended) (fun t => t.rdata) = some (some 2) ∧
    State.reset.status.busy = false ∧ State.reset.status.busyErr = false ∧ State.reset.arg2 = 0 := by decide

theorem witness_ReadArgumentsReturnTheLastKeptWrite :
    ended.status.busy = false ∧ (isArgWrite .rdArg0 = false ∨ ended.status.busy = true) ∧
    (isArgWrite (.wrArg0 3) = false ∨ flying.status.busy = true) := by decide

theorem witness_ReadResultReturnsTheLastCompletion :
    flying.pend = some { op := .powmod, a0 := 16, a1 := 5, a2 := 17 } ∧
    (digitFlying 3).pend = some { op := .hexdigit, a0 := 3, a1 := 0, a2 := 0 } := by decide

theorem witness_ReadsHaveNoSideEffect : isRead .rdCmd = true ∧ isRead .rdRsv7 = true := by decide

theorem witness_CmdWriteIssuesItsCommand : flying.status.busy = true := rfl

theorem witness_WritesWhileBusyAreDropped :
    flying.status.busy = true ∧ (isCmdWrite .clear = true ∨ isArgWrite .clear = true) ∧
    (isCmdWrite (.wrArg2 0) = true ∨ isArgWrite (.wrArg2 0) = true) := by decide

theorem witness_NopChangesOnlyCmd : ended.status.busy = false ∧ flying.status.busy = true := by decide

theorem witness_ClearClearsDoneErrAndBusyErr : afterB7.status.busy = false ∧ flying.status.busy = true := by decide

theorem witness_IllegalWordEndsWithIllegalCommand :
    (((4 : Word).extractLsb' 4 28 ≠ 0 ∨ 4 ≤ ((4 : Word).extractLsb' 0 4).toNat) ∧
      ((16 : Word).extractLsb' 4 28 ≠ 0 ∨ 4 ≤ ((16 : Word).extractLsb' 0 4).toNat)) ∧
    ended.status.busy = false ∧ flying.status.busy = true := by decide

theorem witness_PowmodIssueChecksTheModulus :
    (State.reset.status.busy = false ∧ State.reset.arg2 = 0) ∧ (ended.status.busy = false ∧ ended.arg2 ≠ 0) ∧
    (∃ s : State, s.pend = some { op := .powmod, a0 := 7, a1 := 0, a2 := 1 }) ∧
    flying.pend = some { op := .powmod, a0 := 16, a1 := 5, a2 := 17 } :=
  ⟨by decide, by decide, ⟨{ flying with pend := some { op := .powmod, a0 := 7, a1 := 0, a2 := 1 } }, rfl⟩, rfl⟩

theorem witness_HexdigitIssueChecksTheIndex :
    (∃ s : State, s.status.busy = false ∧ 0x1FFFFFFF < s.arg0.toNat) ∧
    (∃ s : State, s.status.busy = false ∧ s.arg0.toNat ≤ 0x1FFFFFFF) ∧
    (digitFlying 0).pend = some { op := .hexdigit, a0 := 0, a1 := 0, a2 := 0 } ∧
    (digitFlying 3).pend = some { op := .hexdigit, a0 := 3, a1 := 0, a2 := 0 } :=
  ⟨⟨{ ended with arg0 := 0x20000000 }, by decide⟩, ⟨{ ended with arg0 := 0x1FFFFFFF }, by decide⟩, rfl, rfl⟩

theorem witness_ErrorsAreRecordedPrecisely :
    (State.reset.status.busy = false ∧ (2 : BitVec 4) = 2 ∧ 3 < (4 : Word).toNat) ∧
    (State.reset.status.busy = false ∧ (1 : BitVec 4) = 1 ∧ (1 : Word) = 1 ∧ State.reset.arg2 = 0) ∧
    (∃ s : State, s.status.busy = false ∧ (3 : BitVec 4) = 3 ∧ (2 : Word) = 2 ∧ 0x1FFFFFFF < s.arg0.toNat) :=
  ⟨by decide, by decide, { ended with arg0 := 0x20000000 }, by decide⟩

theorem witness_CompletionWritesResultAndStatus :
    (∃ s p, Inv s ∧ s.pend = some p ∧ p.op = .powmod) ∧ (∃ s p, Inv s ∧ s.pend = some p ∧ p.op = .hexdigit) ∧
    State.reset.pend = none :=
  ⟨⟨flying, _, inv_flying, rfl, rfl⟩, ⟨digitFlying 0x1FFFFFFF, _, inv_digitFlying, rfl, rfl⟩, rfl⟩

theorem inv_turns {s : State} (h : Inv s) (l : List Turn) : Inv { s with turns := l } :=
  ⟨h.1, h.2, h.3, h.4, h.5, h.6, h.7⟩

theorem witness_CompletionMayFallAfterAnyHostSteps :
    let hosts := [writeTurn 2 3, .pins (Pins.transaction false 1 0)]
    let s := { flying with turns := hosts ++ .engine :: [writeTurn 0 3] }
    Inv s ∧ s.pend = some { op := .powmod, a0 := 16, a1 := 5, a2 := 17 } ∧ ∀ t ∈ hosts, t.isHost = true :=
  ⟨inv_turns inv_flying _, rfl, by decide⟩

theorem witness_AcceptedCommandCompletesUnlessReset :
    let s := { flying with turns := [writeTurn 2 3, .pins (resetPins false 0 0), .engine] }
    Inv s ∧ s.pend = some { op := .powmod, a0 := 16, a1 := 5, a2 := 17 } ∧
      ∀ t ∈ s.turns, t.isQuiet = true ∨ t.isReset = true :=
  ⟨inv_turns inv_flying _, rfl, by decide⟩

theorem witness_ModExpIsTheMathematicalPower : (1 : Word) ≠ 0 := by decide

theorem witness_ModExpLoopNeverWraps : 2 ≤ (2 : Word).toNat := by decide

theorem witness_PowmodLeavesThePowerInResult : Inv ended ∧ ended.status.busy = false ∧ ended.arg2 ≠ 0 :=
  ⟨inv_ended, by decide, by decide⟩

theorem witness_HexDigitIsThatOfTheFormulas : (0x1FFFFFFF : Word).toNat ≤ 0x1FFFFFFF := by decide

theorem witness_HexdigitLeavesTheDigitInResult : Inv ended ∧ ended.status.busy = false ∧ ended.arg0.toNat ≤ 0x1FFFFFFF :=
  ⟨inv_ended, by decide, by decide⟩

theorem val_one : Fp.val (.fin false (2 ^ 52) (-52)) = 1 := by norm_num [Fp.val]

theorem witness_ArithmeticRoundsToNearestEven :
    let a := Fp.fin false (2 ^ 52) (-52)
    Fp.finite a = true ∧ |Fp.val a + Fp.val a| ≤ fpMax ∧ |Fp.val a - Fp.val a| ≤ fpMax ∧
      |Fp.val a * Fp.val a| ≤ fpMax ∧ Fp.val a ≠ 0 ∧ |Fp.val a / Fp.val a| ≤ fpMax := by
  refine ⟨by decide, ?_, ?_, ?_, ?_, ?_⟩ <;> rw [val_one] <;> norm_num [fpMax] <;>
    exact le_trans (by norm_num) (le_mul_of_one_le_right (by norm_num) (one_le_pow₀ (by norm_num)))

theorem witness_ConversionsAndFloorAreExact :
    2 ^ 53 - 1 < 2 ^ 53 ∧ Fp.finite (.fin true 1 (-1074)) = true ∧
    Fp.finite (.fin false (15 * 2 ^ 49) (-49)) = true ∧ 15 ≤ 15 ∧ Fp.val (.fin false (15 * 2 ^ 49) (-49)) = (15 : ℕ) :=
  ⟨by decide, by decide, by decide, by decide, by norm_num [Fp.val]⟩

theorem witness_TailDenominatorsAreExact : 6 ∈ [1, 4, 5, 6] ∧ 0x20000000 ≤ 0x20000000 ∧ 4 < 5 := by decide

theorem witness_EmptyFinitePartIsZero : 1 ∈ [1, 4, 5, 6] ∧ 6 ∈ [1, 4, 5, 6] := by decide

theorem witness_SeriesValuesStayInRange : 1 ∈ [1, 4, 5, 6] ∧ 0x20000000 ≤ 0x20000000 := by decide

theorem witness_ExtractionYieldsAHexDigit : Fp.finite (.fin true 1 (-1074)) = true := by decide

theorem witness_EveryStepKeepsTheInvariant : ∃ s t, Inv s ∧ step s = .next t := ⟨flying, _, inv_flying, rfl⟩

theorem witness_StatusReadsAsALegalValue : ∃ s, Inv s ∧ s.readReg .status = 1 := ⟨flying, inv_flying, by decide⟩

theorem witness_ResultChangesOnlyAtCompletionOrReset : ∃ s t, Inv s ∧ step s = .next t ∧ s.result ≠ t.result :=
  ⟨{ ended with turns := [.pins (resetPins false 0 0)] }, _, inv_turns inv_ended _, rfl, by decide⟩

theorem witness_ArgumentsChangeOnlyByHostWriteOrReset : ∃ s t, step s = .next t ∧ s.arg1 ≠ t.arg1 :=
  ⟨{ ended with turns := [writeTurn 3 7] }, _, rfl, by decide⟩

theorem witness_BusyChangesOnlyAsItsRuleSays :
    (∃ s t, Inv s ∧ step s = .next t ∧ s.status.busy = false ∧ t.status.busy = true) ∧
    (∃ s t, Inv s ∧ step s = .next t ∧ s.status.busy = true ∧ t.status.busy = false) :=
  ⟨⟨{ ended with turns := [writeTurn 0 1] }, _, inv_turns inv_ended _, rfl, rfl, rfl⟩,
    ⟨flying, _, inv_flying, rfl, rfl, rfl⟩⟩

theorem witness_DoneChangesOnlyAsItsRuleSays :
    (∃ s t, Inv s ∧ step s = .next t ∧ s.status.done = false ∧ t.status.done = true) ∧
    (∃ s t, Inv s ∧ step s = .next t ∧ s.status.done = true ∧ t.status.done = false) :=
  ⟨⟨flying, _, inv_flying, rfl, rfl, rfl⟩,
    ⟨{ ended with turns := [writeTurn 0 3] }, _, inv_turns inv_ended _, rfl, rfl, rfl⟩⟩

theorem witness_BusyErrIsSticky :
    (∃ s t, step s = .next t ∧ s.status.busyErr = false ∧ t.status.busyErr = true) ∧
    (∃ s t, step s = .next t ∧ s.status.busyErr = true ∧ t.status.busyErr = false) :=
  ⟨⟨{ flying with turns := [writeTurn 2 3] }, _, rfl, rfl, rfl⟩,
    ⟨{ ended with turns := [writeTurn 0 3], status := { ended.status with busyErr := true } }, _, rfl, rfl, rfl⟩⟩

theorem witness_DatapathRegistersAreUnobservable : ∃ s t : State, s ≠ t ∧ s.visible = t.visible :=
  ⟨flying, { flying with freeCtr := 1 }, by decide, rfl⟩

theorem witness_ByteLanesAreLittleEndian : 0 < 4 ∧ 3 < 4 := by decide

theorem witness_SubWordAndMisalignedAccessesAreRefused :
    0 ≠ 4 ∧ 5 ≠ 4 ∧ ([] : List Byte).length ≠ 4 ∧ (1 < 32 ∧ 1 % 4 ≠ 0) ∧ (31 < 32 ∧ 31 % 4 ≠ 0) := by decide

theorem witness_PseudoPowmodExpandsToItsTransactions :
    0xFFFFFFFF < 2 ^ 32 ∧ 2 ^ 32 ≤ 0x100000000 ∧
    "RSV7" ∈ ["CMD", "STATUS", "ARG0", "ARG1", "ARG2", "RESULT", "RSV6", "RSV7"] := by decide

end Sys2Proof.Tests
end

section
/-! PROOFS. The registers of 10_state.md: RESULT (R26) and the outputs (R33); and what they rest on: the value of MODEXP
(R86) and of a completion (R78). -/

namespace Sys2Proof.Machine

/-! ### STATUS as a word -/

/-- Bit 0 of STATUS is BUSY (R18). -/
theorem Status.toWord_busy (st : Status) : st.toWord.getLsbD 0 = st.busy := by
  simp only [Status.toWord, BitVec.getLsbD_append]
  simp

/-- Bit 1 of STATUS is DONE (R18). -/
theorem Status.toWord_done (st : Status) : st.toWord.getLsbD 1 = st.done := by
  simp only [Status.toWord, BitVec.getLsbD_append]
  simp

/-- Settles O53: the outputs are the stored BUSY and DONE, which are bits 0 and 1 of the STATUS word. -/
theorem outputsFollowStatus : Obligations.OutputsFollowStatus :=
  fun s => ⟨s.status.toWord_busy.symm, s.status.toWord_done.symm⟩

/-! ### The value of MODEXP -/

/-- The quantity the loop of R81 keeps: r * b^e modulo the modulus. -/
theorem ModexpRegs.iterate_power (d : ModexpRegs) (hm : d.m ≠ 0) :
    d.iterate.r.toNat * d.iterate.b.toNat ^ d.iterate.e.toNat ≡
      d.r.toNat * d.b.toNat ^ d.e.toNat [MOD d.m.toNat] := by
  have hb : d.iterate.b.toNat ^ d.iterate.e.toNat ≡ d.b.toNat ^ (2 * (d.e.toNat / 2)) [MOD d.m.toNat] := by
    rw [d.iterate_b_toNat hm, d.iterate_e_toNat, pow_mul, pow_two]
    exact (Nat.mod_modEq _ _).pow _
  rw [d.iterate_r_toNat hm]
  split
  case isTrue hodd =>
    have he : d.e.toNat = 2 * (d.e.toNat / 2) + 1 := by omega
    calc d.r.toNat * d.b.toNat % d.m.toNat * d.iterate.b.toNat ^ d.iterate.e.toNat
        ≡ d.r.toNat * d.b.toNat * d.b.toNat ^ (2 * (d.e.toNat / 2)) [MOD d.m.toNat] := (Nat.mod_modEq _ _).mul hb
      _ = d.r.toNat * d.b.toNat ^ d.e.toNat := by rw [mul_assoc, ← pow_succ', ← he]
  case isFalse heven =>
    have he : 2 * (d.e.toNat / 2) = d.e.toNat := by omega
    rw [he] at hb
    exact hb.mul_left _

/-- `r` stays reduced: an iteration keeps it or replaces it by a residue (R84). -/
theorem ModexpRegs.iterate_r_lt (d : ModexpRegs) (hm : d.m ≠ 0) (hr : d.r.toNat < d.m.toNat) :
    d.iterate.r.toNat < d.m.toNat := by
  rw [d.iterate_r_toNat hm]
  split
  · exact Nat.mod_lt _ (by omega)
  · exact hr

/-- The loop of R81, with enough fuel for the exponent's bits, leaves r * b^e modulo the modulus in `r`. -/
theorem modexpLoop_r_toNat (fuel : Nat) (d : ModexpRegs) (hm : d.m ≠ 0) (hr : d.r.toNat < d.m.toNat)
    (he : d.e.toNat < 2 ^ fuel) :
    (modexpLoop fuel d).r.toNat = d.r.toNat * d.b.toNat ^ d.e.toNat % d.m.toNat := by
  induction fuel generalizing d with
  | zero =>
    have h0 : d.e.toNat = 0 := by omega
    simp [modexpLoop, h0, Nat.mod_eq_of_lt hr]
  | succ fuel ih =>
    rw [modexpLoop]
    split
    case isTrue h0 => simp [h0, Nat.mod_eq_of_lt hr]
    case isFalse =>
      have he' : d.iterate.e.toNat < 2 ^ fuel := by rw [d.iterate_e_toNat]; omega
      rw [ih d.iterate (by simpa using hm) (by simpa using d.iterate_r_lt hm hr) he', d.iterate_m]
      exact d.iterate_power hm

/-- ModExp is the mathematical power modulo the modulus (R86); modulus 1 gives 0 without the loop (R83). -/
theorem modExp_toNat (base exponent modulus : Word) (hm : modulus ≠ 0) :
    (modExp base exponent modulus).toNat = base.toNat ^ exponent.toNat % modulus.toNat := by
  have hm0 : modulus.toNat ≠ 0 := fun h => hm (BitVec.eq_of_toNat_eq h)
  by_cases h1 : modulus = 1#32
  · simp [modExp, modexpRun, h1, Nat.mod_one]
  · have hm1 : modulus.toNat ≠ 1 := fun h => h1 (BitVec.eq_of_toNat_eq h)
    have hloop := modexpLoop_r_toNat 32 (modexpInit base exponent modulus ModexpRegs.zero) hm
      (show 1 < modulus.toNat by omega) exponent.isLt
    calc (modExp base exponent modulus).toNat
        = (modexpLoop 32 (modexpInit base exponent modulus ModexpRegs.zero)).r.toNat := by
          simp only [modExp, modexpRun, if_neg (show ¬modulus = 0#32 from hm), if_neg h1]
      _ = 1 * (base.toNat % modulus.toNat) ^ exponent.toNat % modulus.toNat := hloop
      _ = base.toNat ^ exponent.toNat % modulus.toNat := by rw [one_mul, ← Nat.pow_mod]

/-! ### The value of a completion -/

/-- What the engine computes for an accepted command is the command's value, whatever the datapath registers hold
(R78, R87, R97). -/
theorem completionRun_eq_completionValue (p : Pending) (d : Datapath) (hp : p.op = .powmod → p.a2 ≠ 0) :
    (completionRun p d).2 = completionValue p := by
  cases hop : p.op with
  | powmod =>
    simp only [completionRun, completionValue, hop, modexpRun_eq]
    rw [← modExp_toNat _ _ _ (hp hop), BitVec.ofNat_toNat, BitVec.setWidth_eq]
  | hexdigit =>
    simp only [completionRun, completionValue, hop, hexDigitAt]
    rw [hexDigitRun_value]

/-- The invariant says nothing of the schedule or of what was read. -/
theorem Inv.beginStep {s : State} (h : Inv s) (rest : List Turn) : Inv (s.beginStep rest) :=
  ⟨h.busy_iff_pend, h.busy_not_done, h.busy_no_err, h.err_legal, h.captured, h.powmod_accepted, h.hexdigit_accepted⟩

/-- A completion writes the value of the command in flight to RESULT (R78). -/
theorem Inv.complete_result {s : State} {p : Pending} (h : Inv s) (hp : s.pend = some p) :
    (s.complete p).result = completionValue p :=
  completionRun_eq_completionValue p s.datapath fun hop => (h.powmod_accepted p hp hop).1

/-! ### RESULT -/

/-- No operation of the host writes RESULT (R26, R62, R69). -/
theorem Effect.result_eq {s t : State} (h : Effect s t) : t.result = s.result := by
  cases h <;> rfl

/-- Settles O48, by the agent that takes the step: the engine completes the command in flight or does nothing, a reset
clears RESULT, and no operation of the host writes it. -/
theorem resultChangesOnlyAtCompletionOrReset : Obligations.ResultChangesOnlyAtCompletionOrReset := by
  intro s t hs h
  rcases step_cases h with ⟨rest, -, rfl⟩ | ⟨u, rest, hu, hreset, rfl⟩ | ⟨u, rest, -, -, he⟩
  · cases hp : s.pend with
    | none =>
      rw [State.engineTurn_none (s := s.beginStep rest) hp]
      exact .inl rfl
    | some p =>
      rw [State.engineTurn_some (s := s.beginStep rest) hp]
      exact .inr (.inl ⟨p, rfl, rfl, (hs.beginStep rest).complete_result hp⟩)
  · exact .inr (.inr ⟨u, rest, hu, hreset, rfl⟩)
  · exact .inl he.result_eq

end Sys2Proof.Machine
end

section
/-! PROOFS. The encoding of 30_encoding.md: the transactions by their `ctl` (R47, R48), and the illegal command words
(R51). -/

namespace Sys2Proof.Machine

/-! ### Transactions -/

/-- Settles O4: the decoder reads the packed `ctl` and `wdata` back, and each value of `ctl` selects its own row. -/
theorem everyCtlDecodesToItsTransaction : Obligations.EveryCtlDecodesToItsTransaction := by
  intro v
  simp only [decode, decodeBus, busCtl_append, busWdata_append]
  refine ⟨?_, ?_, ?_, ?_, ?_, ?_, ?_, ?_, ?_, ?_, ?_, ?_, ?_, ?_, ?_, ?_⟩ <;> rfl

/-! ### Illegal command words -/

/-- The fields of a word say that it is no command exactly when the word is past the last command, CLEAR. -/
theorem illegal_word_iff (w : Word) : cmdRsv w ≠ 0#28 ∨ 4 ≤ (cmdOp w).toNat ↔ 4 ≤ w.toNat :=
  not_iff_not.mp ((legal_word_iff w).trans Nat.not_le.symm)

/-- The exact match of R50 leaves a word as illegal exactly when it is past the last command, CLEAR. -/
theorem decodeCmd_eq_illegal_iff (w : Word) : decodeCmd w = .illegal w ↔ 4 ≤ w.toNat := by
  constructor
  · intro h
    by_contra hlt
    have hw : w = 0#32 ∨ w = 1#32 ∨ w = 2#32 ∨ w = 3#32 := by bv_omega
    rcases hw with rfl | rfl | rfl | rfl <;> exact absurd h (by decide)
  · intro h
    have hw : w ≠ 0#32 ∧ w ≠ 1#32 ∧ w ≠ 2#32 ∧ w ≠ 3#32 := by bv_omega
    obtain ⟨h0, h1, h2, h3⟩ := hw
    rw [decodeCmd, if_neg h0, if_neg h1, if_neg h2, if_neg h3]

/-- A write of an illegal word to CMD is the instruction ILLEGAL with that word (R71). -/
theorem execWrCmd_of_illegal {w : Word} (h : cmdRsv w ≠ 0#28 ∨ 4 ≤ (cmdOp w).toNat) (s : State) :
    execWrCmd w s = execIllegal w s := if_pos h

/-- An illegal word written while idle is held in CMD and recorded as ILLEGAL_COMMAND (R75, R108). -/
theorem execIllegal_idle {s : State} (h : s.status.busy = false) (w : Word) :
    execIllegal w s = .next { s with cmd := w, status := s.status.record .illegalCommand } := by
  rw [execIllegal, State.issue_idle h]
  rfl

/-- Settles O5: the decoder's exact match and the field tests of R71 both draw the line at the word 4, and the write is
then the instruction ILLEGAL. -/
theorem illegalWordsAreThoseOfRsvOrOp : Obligations.IllegalWordsAreThoseOfRsvOrOp := by
  intro w
  constructor
  · exact (decodeCmd_eq_illegal_iff w).trans (illegal_word_iff w).symm
  · intro s hidle hillegal
    exact (execWrCmd_of_illegal hillegal s).trans (execIllegal_idle hidle w)

end Sys2Proof.Machine
end

section
/-! PROOFS. The host's access to the registers (40_host_access.md): what each read returns (R57 to R63), which writes are
kept, dropped or ignored (R65 to R70), and which registers each kind of operation leaves alone. -/

namespace Sys2Proof.Machine

/-! ### Reads -/

/-- What a register reads does not depend on what was read before (R39). -/
@[simp] theorem State.readReg_busRead (s : State) (r r' : Reg) : (s.busRead r).readReg r' = s.readReg r' := by
  cases r' <;> rfl

/-- A read repeated at once changes nothing more (R39). -/
theorem State.busRead_busRead (s : State) (r : Reg) : (s.busRead r).busRead r = s.busRead r := by
  rw [State.busRead, State.readReg_busRead]
  rfl

/-! ### What each kind of operation leaves alone -/

/-- A read, or a write to STATUS, RESULT or a reserved address, changes `rdata` at most. -/
theorem exec_only_rdata {i : Instr} (hc : isCmdWrite i = false) (ha : isArgWrite i = false) (s : State) :
    ∃ r, exec i s = .next { s with rdata := r } := by
  cases i with
  | wrCmd | nop | powmod | hexdigit | clear | illegal => cases hc
  | wrArg0 | wrArg1 | wrArg2 => cases ha
  | _ => exact ⟨_, rfl⟩

/-- The shape of a write that BUSY can drop (R105), the dropped STATUS written out. -/
theorem State.guardedWrite_eq (s : State) (w : State → State) :
    s.guardedWrite w =
      if s.status.busy = true then { s with status := { s.status with busyErr := true } } else w s := rfl

/-- A guarded write leaves CMD alone when the write itself does. -/
theorem State.guardedWrite_cmd {s : State} {w : State → State} (hw : (w s).cmd = s.cmd) :
    (s.guardedWrite w).cmd = s.cmd := by
  rw [State.guardedWrite_eq]
  split
  · rfl
  · exact hw

/-- A write to an argument register leaves CMD alone, kept or dropped. -/
theorem exec_argWrite_cmd {i : Instr} (ha : isArgWrite i = true) (s : State) :
    ∃ t, exec i s = .next t ∧ t.cmd = s.cmd := by
  cases i with
  | wrArg0 | wrArg1 | wrArg2 => exact ⟨_, rfl, State.guardedWrite_cmd rfl⟩
  | _ => cases ha

/-- The effect of a command word reaches STATUS and PEND at most. -/
def OnlyStatusAndPend (e : State → State) : Prop := ∀ s, ∃ st p, e s = { s with status := st, pend := p }

theorem State.issuePowMod_onlyStatusAndPend : OnlyStatusAndPend State.issuePowMod := by
  intro s
  by_cases h : s.arg2 = 0#32
  · exact ⟨_, _, State.issuePowMod_zero h⟩
  · exact ⟨_, _, State.issuePowMod_pos h⟩

theorem State.issueHexDigit_onlyStatusAndPend : OnlyStatusAndPend State.issueHexDigit := by
  intro s
  rcases Nat.lt_or_ge Config.nMax s.arg0.toNat with h | h
  · exact ⟨_, _, State.issueHexDigit_beyond h⟩
  · exact ⟨_, _, State.issueHexDigit_ok h⟩

/-- WR.CMD issues the very word it carries (R64, R71). -/
theorem exec_wrCmd_issues (v : Word) (s : State) :
    ∃ e, OnlyStatusAndPend e ∧ exec (.wrCmd v) s = .next (s.issue v e) := by
  by_cases hillegal : cmdRsv v ≠ 0#28 ∨ 4 ≤ (cmdOp v).toNat
  · exact ⟨_, fun _ => ⟨_, _, rfl⟩, execWrCmd_of_illegal hillegal s⟩
  · have hlt := (legal_word_iff v).mp hillegal
    have hv : v = 0#32 ∨ v = 1#32 ∨ v = 2#32 ∨ v = 3#32 := by bv_omega
    rcases hv with rfl | rfl | rfl | rfl
    · exact ⟨_, fun _ => ⟨_, _, rfl⟩, rfl⟩
    · exact ⟨_, State.issuePowMod_onlyStatusAndPend, rfl⟩
    · exact ⟨_, State.issueHexDigit_onlyStatusAndPend, rfl⟩
    · exact ⟨_, fun _ => ⟨_, _, rfl⟩, rfl⟩

/-- Every write to CMD, a command word included, issues some word (R28, R71). -/
theorem exec_cmdWrite_issues {i : Instr} (hc : isCmdWrite i = true) (s : State) :
    ∃ v e, OnlyStatusAndPend e ∧ exec i s = .next (s.issue v e) := by
  cases i with
  | wrCmd v => exact ⟨v, exec_wrCmd_issues v s⟩
  | nop | clear | illegal => exact ⟨_, _, fun _ => ⟨_, _, rfl⟩, rfl⟩
  | powmod => exact ⟨_, _, State.issuePowMod_onlyStatusAndPend, rfl⟩
  | hexdigit => exact ⟨_, _, State.issueHexDigit_onlyStatusAndPend, rfl⟩
  | _ => cases hc

/-- Issuing a command reaches CMD, STATUS and PEND at most. -/
theorem OnlyStatusAndPend.issue_eq {e : State → State} (he : OnlyStatusAndPend e) (s : State) (v : Word) :
    ∃ st p, s.issue v e = { s with cmd := if s.status.busy then s.cmd else v, status := st, pend := p } := by
  cases h : s.status.busy with
  | true => exact ⟨_, _, State.issue_busy h v e⟩
  | false =>
    rw [State.issue_idle h]
    exact he { s with cmd := v }

/-- A turn of the engine leaves alone whatever a completion leaves alone. -/
theorem State.engineTurn_keeps {α : Type} (f : State → α) (s : State) (hf : ∀ p, f (s.complete p) = f s) :
    f s.engineTurn = f s := by
  cases h : s.pend with
  | none => rw [State.engineTurn_none h]
  | some p => rw [State.engineTurn_some h, hf]

/-! ### CMD -/

/-- Settles O10: only a write to CMD reaches CMD, and while idle it leaves its own word there. -/
theorem readCmdReturnsTheLastAcceptedWord : Obligations.ReadCmdReturnsTheLastAcceptedWord := by
  refine ⟨fun w => ?_, fun s => rfl, fun s v => ?_, fun s i hc => ?_, fun s => ?_, rfl⟩
  · obtain ⟨hcmd, -⟩ := everyCtlDecodesToItsTransaction w
    exact hcmd
  · obtain ⟨e, he, hexec⟩ := exec_wrCmd_issues v s
    obtain ⟨st, p, hissue⟩ := he.issue_eq s v
    exact ⟨_, hexec, congrArg State.cmd hissue⟩
  · cases ha : isArgWrite i with
    | true => exact exec_argWrite_cmd ha s
    | false =>
      obtain ⟨r, hexec⟩ := exec_only_rdata hc ha s
      exact ⟨_, hexec, rfl⟩
  · exact State.engineTurn_keeps State.cmd s fun _ => rfl

/-! ### STATUS -/

/-- A POWMOD refused for its modulus while idle changes CMD and STATUS only (R76, R108). -/
theorem execPowmod_idle_zero {s : State} (hidle : s.status.busy = false) (h0 : s.arg2 = 0) :
    execPowmod s = .next { s with cmd := 1, status := s.status.record .invalidArgument } := by
  rw [execPowmod, State.issue_idle hidle, State.issuePowMod_zero (s := { s with cmd := 1#32 }) h0]
  rfl

/-- STATUS reads 0x12 after INVALID_ARGUMENT at issue: DONE, and the error code 1 (R58, R108). -/
theorem Status.toWord_record_invalidArgument {st : Status} (hidle : st.busy = false) (hbe : st.busyErr = false) :
    (st.record .invalidArgument).toWord = 0x00000012 := by
  simp only [Status.toWord, Status.record_busy, Status.record_done, Status.record_err, Status.record_busyErr, hidle, hbe]
  decide

/-- Settles O11: a read of STATUS is the packed word of R58, and idempotent; the example is that of a refused POWMOD. -/
theorem readStatusReturnsItsFields : Obligations.ReadStatusReturnsItsFields := by
  refine ⟨fun w => ?_, fun s => rfl, fun s t h => ?_, fun s hidle hbe h0 => ?_⟩
  · obtain ⟨-, hstatus, -⟩ := everyCtlDecodesToItsTransaction w
    exact hstatus
  · obtain rfl : s.busRead .status = t := Host.Outcome.next.inj h
    exact congrArg Host.Outcome.next (s.busRead_busRead .status)
  · refine ⟨_, execPowmod_idle_zero hidle h0, ?_⟩
    rw [← Status.toWord_record_invalidArgument hidle hbe]
    rfl

/-! ### ARG0, ARG1 and ARG2 -/

/-- Whatever an operation does while a command is in flight, it leaves the arguments alone (R105). -/
theorem Effect.args_eq_of_busy {s t : State} (h : Effect s t) (hbusy : s.status.busy = true) :
    t.arg0 = s.arg0 ∧ t.arg1 = s.arg1 ∧ t.arg2 = s.arg2 := by
  cases h with
  | arg0 hidle | arg1 hidle | arg2 hidle => simp [hbusy] at hidle
  | _ => exact ⟨rfl, rfl, rfl⟩

/-- No command and no other operation than a write to an argument register changes an argument (R59 to R61). -/
theorem exec_not_argWrite_args {i : Instr} (ha : isArgWrite i = false) (s : State) :
    ∃ t, exec i s = .next t ∧ t.arg0 = s.arg0 ∧ t.arg1 = s.arg1 ∧ t.arg2 = s.arg2 := by
  cases hc : isCmdWrite i with
  | true =>
    obtain ⟨v, e, he, hexec⟩ := exec_cmdWrite_issues hc s
    obtain ⟨st, p, hissue⟩ := he.issue_eq s v
    rw [hissue] at hexec
    exact ⟨_, hexec, rfl, rfl, rfl⟩
  | false =>
    obtain ⟨r, hexec⟩ := exec_only_rdata hc ha s
    exact ⟨_, hexec, rfl, rfl, rfl⟩

/-- Settles O12: a write kept while idle is what the next read returns; nothing else reaches an argument. -/
theorem readArgumentsReturnTheLastKeptWrite : Obligations.ReadArgumentsReturnTheLastKeptWrite := by
  refine ⟨fun w => ?_, fun s => ⟨rfl, rfl, rfl⟩, fun s v hidle => ?_, fun s i h => ?_, fun s => ?_, rfl, rfl, rfl⟩
  · obtain ⟨-, -, harg0, harg1, harg2, -⟩ := everyCtlDecodesToItsTransaction w
    exact ⟨harg0, harg1, harg2⟩
  · have hkept (w : State → State) : Host.Outcome.next (s.guardedWrite w) = (.next (w s) : Result) :=
      congrArg _ (State.guardedWrite_idle hidle w)
    exact ⟨⟨_, hkept _, rfl⟩, ⟨_, hkept _, rfl⟩, ⟨_, hkept _, rfl⟩⟩
  · rcases h with ha | hbusy
    · exact exec_not_argWrite_args ha s
    · obtain ⟨t, hexec, heffect⟩ := exec_effect i s
      exact ⟨t, hexec, heffect.args_eq_of_busy hbusy⟩
  · exact ⟨s.engineTurn_keeps State.arg0 fun _ => rfl, s.engineTurn_keeps State.arg1 fun _ => rfl,
      s.engineTurn_keeps State.arg2 fun _ => rfl⟩

/-- Settles O17: each argument write is the write that BUSY can drop. -/
theorem argumentWritesAreKeptOrDropped : Obligations.ArgumentWritesAreKeptOrDropped := by
  intro s v
  obtain ⟨-, -, -, -, -, -, -, -, -, -, harg0, harg1, harg2, -⟩ := everyCtlDecodesToItsTransaction v
  have hexec (w : State → State) := congrArg (Host.Outcome.next : State → Result) (s.guardedWrite_eq w)
  exact ⟨harg0, harg1, harg2, hexec _, hexec _, hexec _⟩

/-! ### RESULT -/

/-- A HEXDIGIT's value is a hexadecimal digit, zero-extended (R97). -/
theorem completionRun_hexdigit_le {p : Pending} (hop : p.op = .hexdigit) (d : Datapath) :
    (completionRun p d).2.toNat ≤ 15 := by
  simp only [completionRun, hop, BitVec.toNat_setWidth]
  have hdigit := (hexDigitRun fpOps p.a0 d).2.isLt
  omega

/-- Settles O13: a completion alone writes RESULT, with the value the engine computes. -/
theorem readResultReturnsTheLastCompletion : Obligations.ReadResultReturnsTheLastCompletion := by
  refine ⟨fun w => ?_, fun s => rfl, fun s i => ?_, rfl, fun s p hp hop => ?_, fun s hp => ?_⟩
  · obtain ⟨-, -, -, -, -, hresult, -⟩ := everyCtlDecodesToItsTransaction w
    exact hresult
  · obtain ⟨t, hexec, heffect⟩ := exec_effect i s
    exact ⟨t, hexec, heffect.result_eq⟩
  · rw [State.engineTurn_some hp, State.complete_result]
    exact completionRun_hexdigit_le hop s.datapath
  · have hvalue : s.engineTurn.result = 0x00000010 := by
      rw [State.engineTurn_some hp, State.complete_result, completionRun_eq_completionValue _ _ fun _ => by decide]
      decide
    rw [← hvalue]
    rfl

/-! ### The reserved addresses, and the writes that are ignored -/

/-- Settles O14: the reserved addresses read 0 in every state, and a write there leaves the state as it was. -/
theorem reservedReadsReturnZero : Obligations.ReservedReadsReturnZero := by
  intro s v
  obtain ⟨-, -, -, -, -, -, hrsv6, hrsv7, -⟩ := everyCtlDecodesToItsTransaction v
  exact ⟨hrsv6, hrsv7, rfl, rfl, ⟨s, rfl, rfl⟩, ⟨s, rfl, rfl⟩⟩

/-- Settles O16: the arms of these writes answer the state they were given. -/
theorem ignoredWritesChangeNothing : Obligations.IgnoredWritesChangeNothing := by
  intro s v
  obtain ⟨-, -, -, -, -, -, -, -, -, hstatus, -, -, -, hresult, hrsv6, hrsv7⟩ := everyCtlDecodesToItsTransaction v
  exact ⟨hstatus, hresult, hrsv6, hrsv7, rfl, rfl, rfl, rfl⟩

end Sys2Proof.Machine
end

section
/-! PROOFS. The command words (41_commands.md section 2): IssueCommand as a whole (R71, R72), and what NOP, CLEAR, an
illegal word, POWMOD and HEXDIGIT each do to the state (R73 to R77). -/

namespace Sys2Proof.Machine

/-! ### Issuing a command -/

/-- The own effect of a command word, tested in the order of R72: illegal word, opcode, argument. -/
def State.commandEffect (v : Word) (s : State) : State :=
  if cmdRsv v ≠ 0#28 ∨ 4 ≤ (cmdOp v).toNat then s.raiseError .illegalCommand
  else if cmdOp v = 0#4 then s
  else if cmdOp v = 1#4 then s.issuePowMod
  else if cmdOp v = 2#4 then s.issueHexDigit
  else s.clearErrors

/-- A word whose fields are those of a command is one of the four command words (R50). -/
theorem command_word_cases {v : Word} (h : ¬(cmdRsv v ≠ 0#28 ∨ 4 ≤ (cmdOp v).toNat)) :
    v = 0#32 ∨ v = 1#32 ∨ v = 2#32 ∨ v = 3#32 := by
  have hlt := (legal_word_iff v).mp h
  bv_omega

/-- WR.CMD issues the word it carries, with the word's own effect (R64, R71). -/
theorem execWrCmd_eq_issue (v : Word) (s : State) : execWrCmd v s = .next (s.issue v (State.commandEffect v)) := by
  by_cases hillegal : cmdRsv v ≠ 0#28 ∨ 4 ≤ (cmdOp v).toNat
  · have heffect : State.commandEffect v = fun s => s.raiseError .illegalCommand := funext fun _ => if_pos hillegal
    rw [execWrCmd_of_illegal hillegal, heffect, execIllegal]
  · rcases command_word_cases hillegal with rfl | rfl | rfl | rfl <;> rfl

/-- The busy check of IssueCommand comes before the word's own effect (R72), the dropped STATUS written out. -/
theorem State.issue_eq (s : State) (v : Word) (e : State → State) :
    s.issue v e = if s.status.busy = true then { s with status := { s.status with busyErr := true } }
      else e { s with cmd := v } :=
  s.guardedWrite_eq _

/-- Every write to CMD is dropped while a command is in flight, whatever its word (R71, R105). -/
theorem exec_cmdWrite_busy {i : Instr} (hc : isCmdWrite i = true) {s : State} (hbusy : s.status.busy = true) :
    exec i s = .next { s with status := { s.status with busyErr := true } } := by
  obtain ⟨v, e, -, hexec⟩ := exec_cmdWrite_issues hc s
  rw [hexec, State.issue_busy hbusy]
  rfl

/-- No operation of the host cancels a command in flight: it stays in PEND, and BUSY stays 1 (R71, R80). -/
theorem Effect.keeps_inFlight {s t : State} (h : Effect s t) (hbusy : s.status.busy = true) :
    t.pend = s.pend ∧ t.status.busy = true := by
  cases h with
  | read | ignored | dropped => exact ⟨rfl, hbusy⟩
  | arg0 hidle | arg1 hidle | arg2 hidle | nop hidle | clear hidle | illegal hidle | invalidArgument hidle
  | indexRange hidle | powmod hidle | hexdigit hidle => simp [hbusy] at hidle

/-- Settles O18: WR.CMD is `State.issue` with the effect of its word, and every effect of an operation while busy leaves
the command in flight. -/
theorem cmdWriteIssuesItsCommand : Obligations.CmdWriteIssuesItsCommand := by
  refine ⟨fun v => ?_, fun s v => ?_, fun i s hbusy => ?_⟩
  · obtain ⟨-, -, -, -, -, -, -, -, hcmd, -⟩ := everyCtlDecodesToItsTransaction v
    exact hcmd
  · exact (execWrCmd_eq_issue v s).trans (congrArg _ (s.issue_eq v (State.commandEffect v)))
  · obtain ⟨t, hexec, heffect⟩ := exec_effect i s
    exact ⟨t, hexec, heffect.keeps_inFlight hbusy⟩

/-! ### NOP, CLEAR and the illegal words -/

/-- NOP writes CMD and has no effect of its own (R73). -/
theorem execNop_idle {s : State} (hidle : s.status.busy = false) : execNop s = .next { s with cmd := 0#32 } := by
  rw [execNop, State.issue_idle hidle]

/-- CLEAR issued while idle (R74). -/
theorem execClear_idle {s : State} (hidle : s.status.busy = false) :
    execClear s = .next { s with cmd := 3#32, status := s.status.clear } := by
  rw [execClear, State.issue_idle hidle]
  rfl

/-- Settles O20: the effect of NOP is the identity, after the write of CMD. -/
theorem nopChangesOnlyCmd : Obligations.NopChangesOnlyCmd :=
  ⟨rfl, fun _ => ⟨rfl, execNop_idle, exec_cmdWrite_busy rfl⟩⟩

/-- Settles O21: CLEAR while idle is `Status.clear`; while busy it is dropped like every write to CMD. -/
theorem clearClearsDoneErrAndBusyErr : Obligations.ClearClearsDoneErrAndBusyErr :=
  ⟨rfl, fun _ => ⟨rfl, execClear_idle, exec_cmdWrite_busy rfl⟩⟩

/-- The encoding admits ILLEGAL with every word whose fields are no command's (R51). -/
theorem wf_illegal {w : Word} (h : cmdRsv w ≠ 0#28 ∨ 4 ≤ (cmdOp w).toNat) : (Instr.illegal w).wf = true := by
  simpa [Instr.wf, cmdRsv, cmdOp] using h

/-- Settles O22: the field tests agree with the decoder, and WR.CMD with such a word is the instruction ILLEGAL. -/
theorem illegalWordEndsWithIllegalCommand : Obligations.IllegalWordEndsWithIllegalCommand := by
  intro s w hillegal
  have hdecode : decodeCmd w = .illegal w := (decodeCmd_eq_illegal_iff w).mpr ((illegal_word_iff w).mp hillegal)
  exact ⟨hdecode, wf_illegal hillegal, fun hidle => execIllegal_idle hidle w, exec_cmdWrite_busy rfl,
    execWrCmd_of_illegal hillegal s⟩

/-! ### POWMOD and HEXDIGIT -/

/-- A POWMOD with a modulus is accepted, its arguments captured (R76). -/
theorem execPowmod_idle_pos {s : State} (hidle : s.status.busy = false) (hpos : s.arg2 ≠ 0) :
    execPowmod s = .next { s with cmd := 1#32, pend := some (s.capture .powmod), status := s.status.accept } := by
  rw [execPowmod, State.issue_idle hidle, State.issuePowMod_pos (s := { s with cmd := 1#32 }) hpos]
  rfl

/-- A HEXDIGIT above N_MAX is refused with INDEX_RANGE (R77, R108). -/
theorem execHexdigit_idle_beyond {s : State} (hidle : s.status.busy = false) (hn : Config.nMax < s.arg0.toNat) :
    execHexdigit s = .next { s with cmd := 2#32, status := s.status.record .indexRange } := by
  rw [execHexdigit, State.issue_idle hidle, State.issueHexDigit_beyond (s := { s with cmd := 2#32 }) hn]
  rfl

/-- A HEXDIGIT up to N_MAX is accepted, its arguments captured (R77). -/
theorem execHexdigit_idle_ok {s : State} (hidle : s.status.busy = false) (hn : s.arg0.toNat ≤ Config.nMax) :
    execHexdigit s = .next { s with cmd := 2#32, pend := some (s.capture .hexdigit), status := s.status.accept } := by
  rw [execHexdigit, State.issue_idle hidle, State.issueHexDigit_ok (s := { s with cmd := 2#32 }) hn]
  rfl

/-- A turn of the engine with a command in flight leaves the command's value in RESULT (R78). -/
theorem State.engineTurn_result {s : State} {p : Pending} (hp : s.pend = some p) (hm : p.op = .powmod → p.a2 ≠ 0) :
    s.engineTurn.result = completionValue p := by
  rw [State.engineTurn_some hp, State.complete_result, completionRun_eq_completionValue p s.datapath hm]

/-- With modulus 1 the value of POWMOD is 0, whatever base and exponent are (R83, R86). -/
theorem completionValue_powmod_one (base exponent : Word) :
    completionValue { op := .powmod, a0 := base, a1 := exponent, a2 := 1 } = 0 :=
  congrArg (BitVec.ofNat 32) (Nat.mod_one (base.toNat ^ exponent.toNat))

/-- Settles O23: the modulus test of IssuePowMod, and the values of the two completions by the mathematical power. -/
theorem powmodIssueChecksTheModulus : Obligations.PowmodIssueChecksTheModulus := by
  refine ⟨rfl, fun s hidle => ⟨rfl, execPowmod_idle_zero hidle, execPowmod_idle_pos hidle⟩, fun s a0 a1 hp => ?_,
    fun s hp => ⟨?_, ?_⟩⟩
  · exact (State.engineTurn_result hp fun _ => (by decide : (1 : Word) ≠ 0)).trans (completionValue_powmod_one a0 a1)
  · exact (State.engineTurn_result hp fun _ => by decide).trans (by decide)
  · rw [State.engineTurn_some hp]
    rfl

/-- The first hexadecimal digit of π's fraction, computed on the unit's own registers (R97). -/
theorem hexDigitAt_zero : hexDigitAt 0 = 2 := by decide +kernel

/-- The digit at index 3, the largest a digit can be (R97). -/
theorem hexDigitAt_three : hexDigitAt 3 = 15 := by decide +kernel

/-- A HEXDIGIT in flight completes with the digit at its index, zero-extended; ARG1 and ARG2 play no part (R77, R97). -/
theorem State.engineTurn_result_hexdigit {s : State} {n a1 a2 : Word} {digit : BitVec 4}
    (hp : s.pend = some { op := .hexdigit, a0 := n, a1 := a1, a2 := a2 }) (hdigit : hexDigitAt n = digit) :
    s.engineTurn.result = digit.setWidth 32 := by
  rw [State.engineTurn_result hp nofun, ← hdigit]
  rfl

/-- Settles O24: the index test of IssueHexDigit, and the completion's digit at the two indices. -/
theorem hexdigitIssueChecksTheIndex : Obligations.HexdigitIssueChecksTheIndex := by
  refine ⟨rfl, fun s hidle => ⟨rfl, execHexdigit_idle_beyond hidle, execHexdigit_idle_ok hidle⟩, fun s _ _ hp => ?_,
    fun s _ _ hp => ?_⟩
  · exact State.engineTurn_result_hexdigit hp hexDigitAt_zero
  · exact State.engineTurn_result_hexdigit hp hexDigitAt_three

end Sys2Proof.Machine
end

section
/-! PROOFS. MODEXP (42_modexp.md): the power (R86), and the iterations of the loop: their bounds (R84) and their number
(R81). -/

namespace Sys2Proof.Machine

/-- Settles O29: the loop keeps r * b^e modulo the modulus, and modulus 1 is decided before it. -/
theorem modExpIsTheMathematicalPower : Obligations.ModExpIsTheMathematicalPower :=
  modExp_toNat

/-! ### The registers after some iterations -/

/-- `r` and `b` are residues of the modulus: what R84 says of them from the loop's start on. -/
structure ModexpRegs.Reduced (d : ModexpRegs) : Prop where
  r_lt : d.r.toNat < d.m.toNat
  b_lt : d.b.toNat < d.m.toNat

/-- Registers below the modulus leave it no room to be 0. -/
theorem ModexpRegs.Reduced.m_ne_zero {d : ModexpRegs} (h : d.Reduced) : d.m ≠ 0 := by
  intro hm
  have hr := h.r_lt
  simp [hm] at hr

/-- The loop starts reduced: 1 is below a modulus of at least 2, and base is reduced first (R81). -/
theorem modexpInit_reduced (base exponent : Word) {modulus : Word} (d : ModexpRegs) (hm : 2 ≤ modulus.toNat) :
    (modexpInit base exponent modulus d).Reduced where
  r_lt := show 1 < modulus.toNat by omega
  b_lt := Nat.mod_lt _ (by omega)

/-- An iteration replaces `r` and `b` by residues or keeps them (R84). -/
theorem ModexpRegs.Reduced.iterate {d : ModexpRegs} (h : d.Reduced) : d.iterate.Reduced where
  r_lt := by simpa using d.iterate_r_lt h.m_ne_zero h.r_lt
  b_lt := by
    rw [d.iterate_b_toNat h.m_ne_zero, d.iterate_m]
    exact Nat.mod_lt _ (by have := h.b_lt; omega)

theorem ModexpRegs.Reduced.iterations {d : ModexpRegs} (h : d.Reduced) (n : ℕ) :
    (ModexpRegs.iterate^[n] d).Reduced :=
  Function.Iterate.rec ModexpRegs.Reduced h (fun _ => ModexpRegs.Reduced.iterate) n

@[simp] theorem ModexpRegs.iterations_m (d : ModexpRegs) (n : ℕ) : (ModexpRegs.iterate^[n] d).m = d.m :=
  congrFun (Function.iterate_invariant (funext ModexpRegs.iterate_m) n) d

/-- Each iteration shifts one bit out of `e` (R81). -/
theorem ModexpRegs.iterations_e_toNat (d : ModexpRegs) (n : ℕ) :
    (ModexpRegs.iterate^[n] d).e.toNat = d.e.toNat / 2 ^ n := by
  induction n with
  | zero => simp
  | succ n ih => rw [Function.iterate_succ_apply', ModexpRegs.iterate_e_toNat, ih, Nat.div_div_eq_div_mul, pow_succ]

/-! ### The number of iterations -/

/-- Halving a number other than 0 shortens it by one bit. -/
theorem size_eq_succ_size_half {n : ℕ} (hn : n ≠ 0) : n.size = (n / 2).size + 1 := by
  have hbit : Nat.bit n.bodd (n / 2) = n := n.bit_bodd_div2
  calc n.size = (Nat.bit n.bodd (n / 2)).size := by rw [hbit]
    _ = (n / 2).size + 1 := Nat.size_bit (by rwa [hbit])

/-- With enough fuel for the exponent's bits, the loop runs once per bit (R81). -/
theorem modexpLoop_eq_iterations (fuel : ℕ) (d : ModexpRegs) (he : d.e.toNat < 2 ^ fuel) :
    modexpLoop fuel d = ModexpRegs.iterate^[d.e.toNat.size] d := by
  induction fuel generalizing d with
  | zero =>
    have h0 : d.e.toNat = 0 := by omega
    simp [modexpLoop, h0]
  | succ fuel ih =>
    rw [modexpLoop]
    split
    case isTrue h0 => simp [h0]
    case isFalse h0 =>
      have hpos : d.e.toNat ≠ 0 := fun h => h0 (BitVec.eq_of_toNat_eq h)
      rw [ih d.iterate (by rw [d.iterate_e_toNat]; omega), d.iterate_e_toNat, size_eq_succ_size_half hpos,
        Function.iterate_succ_apply]

/-- Settles O30: the loop starts reduced and every iteration keeps it so; each shifts one bit out of the exponent. -/
theorem modExpLoopNeverWraps : Obligations.ModExpLoopNeverWraps := by
  intro base exponent modulus d hm
  refine ⟨fun n => ?_, modexpLoop_eq_iterations 32 _ exponent.isLt⟩
  have hmod := (modexpInit base exponent modulus d).iterations_m n
  obtain ⟨hr, hb⟩ := (modexpInit_reduced base exponent d hm).iterations n
  rw [hmod] at hr hb
  exact ⟨hmod, hr, hb, ModexpRegs.iterations_e_toNat _ n, product_toNat _ _, product_toNat _ _⟩

end Sys2Proof.Machine
end

section
/-! PROOFS. The exceptional ends of a write (60_exceptions.md): the drop while busy (R105) and the errors at issue
(R107, R108). -/

namespace Sys2Proof.Machine

/-- Every write to an argument register is dropped while a command is in flight (R66 to R68, R105). -/
theorem exec_argWrite_busy {i : Instr} (ha : isArgWrite i = true) {s : State} (hbusy : s.status.busy = true) :
    exec i s = .next { s with status := { s.status with busyErr := true } } := by
  cases i with
  | wrArg0 | wrArg1 | wrArg2 => exact congrArg (Host.Outcome.next : State → Result) (s.guardedWrite_busy hbusy _)
  | _ => cases ha

/-- Settles O19: both kinds of write, those to CMD and those to the arguments, are dropped while busy. -/
theorem writesWhileBusyAreDropped : Obligations.WritesWhileBusyAreDropped := by
  rintro i s hbusy (hc | ha)
  · exact exec_cmdWrite_busy hc hbusy
  · exact exec_argWrite_busy ha hbusy

/-- Settles O25, by the cause: the word is illegal and the write is ILLEGAL, or it is POWMOD with modulus 0, or HEXDIGIT
with an index above N_MAX. -/
theorem errorsAreRecordedPrecisely : Obligations.ErrorsAreRecordedPrecisely := by
  rintro s v code hidle (⟨rfl, hillegal⟩ | ⟨rfl, rfl, hmodulus⟩ | ⟨rfl, rfl, hindex⟩)
  · exact (execWrCmd_of_illegal ((illegal_word_iff v).mpr hillegal) s).trans (execIllegal_idle hidle v)
  · exact execPowmod_idle_zero hidle hmodulus
  · exact execHexdigit_idle_beyond hidle hindex

end Sys2Proof.Machine
end

section
/-! PROOFS. Reset (70_reset_and_hazards.md): the abandoned command never completes (R116). -/

namespace Sys2Proof.Machine

/-- R116: the step of a reset, whatever the other ports hold, resets CORE. -/
theorem step_reset {s : State} {we : Bool} {addr : BitVec 3} {v : Word} {rest : List Turn}
    (h : s.turns = .pins (resetPins we addr v) :: rest) : step s = .next (s.beginStep rest).resetCore :=
  step_cons h

/-- A turn of the engine with no command in flight changes nothing but the schedule and the port (log 17). -/
theorem step_engine_idle {s : State} {rest : List Turn} (hp : s.pend = none) (ht : s.turns = .engine :: rest) :
    step s = .next (s.beginStep rest) := by
  rw [step_cons ht, takeTurn, State.engineTurn_none (by simpa using hp)]

/-- With no command in flight, the engine's turns only use up the schedule, however many there are. -/
theorem runSteps_engine_idle {s : State} {n : Nat} {rest : List Turn} (hp : s.pend = none) (hr : s.rdata = none)
    (ht : s.turns = List.replicate n .engine ++ rest) : runSteps n s = .next { s with turns := rest } := by
  induction n generalizing s with
  | zero =>
    have hs : s = { s with turns := rest } := by rw [← show s.turns = rest by simpa using ht]
    exact (runSteps_zero s).trans (congrArg _ hs)
  | succ n ih =>
    have hstep := step_engine_idle hp (ht.trans (by rw [List.replicate_succ, List.cons_append]))
    rw [runSteps_succ hstep, ih (by simpa using hp) rfl rfl, State.beginStep, hr]

/-- Settles O43: the reset leaves PEND none, so every later turn of the engine finds nothing to complete. -/
theorem abandonedCommandNeverCompletes : Obligations.AbandonedCommandNeverCompletes := by
  intro s we addr v n
  refine ⟨_, (runSteps_succ (step_reset rfl) n).trans (runSteps_engine_idle rfl rfl rfl), ?_⟩
  exact ⟨rfl, rfl, rfl, rfl, rfl, rfl, rfl, rfl⟩

end Sys2Proof.Machine
end

section
/-! PROOFS. The encoding of 30_encoding.md, both ways: decoding an encoded operation (R47 to R51), encoding a decoded one
(R55), and the write to CMD as the command its word decodes to (R28). -/

namespace Sys2Proof.Machine

/-! ### Transactions -/

/-- A transaction whose `wdata` is 0, as a read is written (R55), is the encoding of what it decodes to. -/
theorem encode_decode_bus_zero : ∀ c : BitVec 4,
    encode (decode (.bus (c ++ 0#32))) = .bus (c ++ 0#32) ∧ (decode (.bus (c ++ 0#32))).wf = true := by
  decide

/-- The eight values of `ctl` with its write bit set (R47, R48). -/
theorem write_ctl_cases : ∀ c : BitVec 4, c.getLsbD 3 = true →
    c = 0x8#4 ∨ c = 0x9#4 ∨ c = 0xA#4 ∨ c = 0xB#4 ∨ c = 0xC#4 ∨ c = 0xD#4 ∨ c = 0xE#4 ∨ c = 0xF#4 := by
  decide

/-- A write transaction is the encoding of what it decodes to, whatever it carries. -/
theorem encode_decode_bus_write {c : BitVec 4} (hc : c.getLsbD 3 = true) (v : Word) :
    encode (decode (.bus (c ++ v))) = .bus (c ++ v) ∧ (decode (.bus (c ++ v))).wf = true := by
  obtain ⟨-, -, -, -, -, -, -, -, hcmd, hstatus, harg0, harg1, harg2, hresult, hrsv6, hrsv7⟩ :=
    everyCtlDecodesToItsTransaction v
  rcases write_ctl_cases c hc with rfl | rfl | rfl | rfl | rfl | rfl | rfl | rfl
  · exact ⟨congrArg encode hcmd, congrArg Instr.wf hcmd⟩
  · exact ⟨congrArg encode hstatus, congrArg Instr.wf hstatus⟩
  · exact ⟨congrArg encode harg0, congrArg Instr.wf harg0⟩
  · exact ⟨congrArg encode harg1, congrArg Instr.wf harg1⟩
  · exact ⟨congrArg encode harg2, congrArg Instr.wf harg2⟩
  · exact ⟨congrArg encode hresult, congrArg Instr.wf hresult⟩
  · exact ⟨congrArg encode hrsv6, congrArg Instr.wf hrsv6⟩
  · exact ⟨congrArg encode hrsv7, congrArg Instr.wf hrsv7⟩

/-- The write bit of a transaction is the top bit of its `ctl` (R47). -/
theorem busCtl_getLsbD_three (t : BitVec 36) : (busCtl t).getLsbD 3 = t.getLsbD 35 := by
  simp [busCtl]

/-! ### Command words -/

/-- A word whose fields are no command's decodes to ILLEGAL (R51). -/
theorem decode_cmd_of_illegal {w : Word} (h : cmdRsv w ≠ 0#28 ∨ 4 ≤ (cmdOp w).toNat) : decode (.cmd w) = .illegal w :=
  (decodeCmd_eq_illegal_iff w).mpr ((illegal_word_iff w).mp h)

/-- A command word is the encoding of what it decodes to, an illegal one included (R50, R51). -/
theorem encode_decode_cmd (w : Word) : encode (decode (.cmd w)) = .cmd w ∧ (decode (.cmd w)).wf = true := by
  by_cases hillegal : cmdRsv w ≠ 0#28 ∨ 4 ≤ (cmdOp w).toNat
  · rw [decode_cmd_of_illegal hillegal]
    exact ⟨rfl, wf_illegal hillegal⟩
  · rcases command_word_cases hillegal with rfl | rfl | rfl | rfl <;> exact ⟨rfl, rfl⟩

/-- The converse of `wf_illegal`: ILLEGAL is admitted with no command's word (R51). -/
theorem illegal_of_wf {w : Word} (h : (Instr.illegal w).wf = true) : cmdRsv w ≠ 0#28 ∨ 4 ≤ (cmdOp w).toNat := by
  simpa [Instr.wf, cmdRsv, cmdOp] using h

/-! ### Both ways -/

/-- Settles O2, by the operation: the reads and the four commands are fixed codes, a write carries its operand, and an
admitted illegal word is none of the four commands. -/
theorem decodeInvertsEncode : Obligations.DecodeInvertsEncode := by
  intro i hwf
  cases i with
  | rdCmd | rdStatus | rdArg0 | rdArg1 | rdArg2 | rdResult | rdRsv6 | rdRsv7 => rfl
  | wrCmd v | wrStatus v | wrArg0 v | wrArg1 v | wrArg2 v | wrResult v | wrRsv6 v | wrRsv7 v =>
    simp only [encode, decode, decodeBus, busCtl_append, busWdata_append]
    rfl
  | nop | powmod | hexdigit | clear => rfl
  | illegal w => exact decode_cmd_of_illegal (illegal_of_wf hwf)

/-- Settles O3: a transaction is its `ctl` and its `wdata`; a canonical one is a write, or carries 0. -/
theorem encodeInvertsDecode : Obligations.EncodeInvertsDecode := by
  intro c hc
  cases c with
  | cmd w => exact encode_decode_cmd w
  | bus t =>
    have hcases : t.getLsbD 35 = true ∨ busWdata t = 0#32 := by simpa [Code.canonical, busWdata] using hc
    rw [← bus_eq_append t]
    rcases hcases with hwrite | hzero
    · exact encode_decode_bus_write ((busCtl_getLsbD_three t).trans hwrite) (busWdata t)
    · rw [hzero]
      exact encode_decode_bus_zero (busCtl t)

/-- Settles O6: past the last command both the field tests and the exact match give ILLEGAL; below it each of the four
words gives its own command. -/
theorem commandWriteRunsItsDecodedWord : Obligations.CommandWriteRunsItsDecodedWord := by
  intro v s
  by_cases hillegal : cmdRsv v ≠ 0#28 ∨ 4 ≤ (cmdOp v).toNat
  · rw [decode_cmd_of_illegal hillegal]
    exact execWrCmd_of_illegal hillegal s
  · rcases command_word_cases hillegal with rfl | rfl | rfl | rfl <;> rfl

/-- Settles O1: the decoder evaluated on the words written out. -/
theorem writtenOutWordsDecode : Obligations.WrittenOutWordsDecode := by
  unfold Obligations.WrittenOutWordsDecode
  decide

end Sys2Proof.Machine
end

section
/-! PROOFS. What every step keeps, and what a step can change: the invariant (R80), the legal values of STATUS (R18), and
the agents that change each register and bit (R19 to R25). -/

namespace Sys2Proof.Machine

/-! ### One step of the ports -/

/-- Settles O7: the step takes the turn it faces, and the ports hold the tuple of R47. -/
theorem stepRunsTheDecodedTransaction : Obligations.StepRunsTheDecodedTransaction :=
  fun s we addr v => step_facing s (.pins (Pins.transaction we addr v))

/-- Settles O8: the step takes the turn it faces, and the ports hold neither a reset nor a transaction. -/
theorem stepWithoutSelectChangesNothing : Obligations.StepWithoutSelectChangesNothing :=
  fun s _ _ _ => step_facing s (.pins _)

/-- Settles O44: the step takes the turn it faces, which is both a reset and a transaction. -/
theorem transactionDuringResetStops : Obligations.TransactionDuringResetStops :=
  fun s _ _ _ => step_facing s (.pins _)

/-- Settles O9: every operation has one of the listed effects. -/
theorem everyOperationCompletes : Obligations.EveryOperationCompletes := by
  intro i s
  obtain ⟨t, hexec, -⟩ := exec_effect i s
  exact ⟨t, hexec⟩

/-- Each read transaction reads its register (R57 to R63). -/
theorem exec_read {i : Instr} (hread : isRead i = true) : ∃ r, ∀ s, exec i s = .next (s.busRead r) := by
  cases i with
  | rdCmd | rdStatus | rdArg0 | rdArg1 | rdArg2 | rdResult | rdRsv6 | rdRsv7 => exact ⟨_, fun _ => rfl⟩
  | _ => cases hread

/-- Settles O15: a read is `State.busRead`, which changes `rdata` alone and is idempotent. -/
theorem readsHaveNoSideEffect : Obligations.ReadsHaveNoSideEffect := by
  intro i s hread
  obtain ⟨r, hexec⟩ := exec_read hread
  exact ⟨s.readReg r, hexec s, (hexec (s.busRead r)).trans (congrArg _ (s.busRead_busRead r))⟩

/-! ### Reset -/

/-- Settles O41: each register of the state after reset, read off. -/
theorem resetStateHoldsTheSpecValues : Obligations.ResetStateHoldsTheSpecValues := by
  unfold Obligations.ResetStateHoldsTheSpecValues
  decide

/-- Settles O42: the step of a reset is `State.resetCore`, whatever the other ports hold. -/
theorem resetStepClearsEverything : Obligations.ResetStepClearsEverything :=
  fun _ _ _ _ => ⟨_, step_reset rfl, rfl, rfl, rfl, rfl, rfl, rfl, rfl, rfl⟩

/-! ### The invariant -/

/-- While CORE is idle, the invariant says no more than that ERR is a legal code. -/
theorem Inv.of_idle {s : State} (hidle : s.status.busy = false) (hpend : s.pend = none)
    (herr : s.status.err.toNat ≤ 3) : Inv s where
  busy_iff_pend := by rw [hidle, hpend]; rfl
  busy_not_done h := by simp [hidle] at h
  busy_no_err h := by simp [hidle] at h
  err_legal := herr
  captured p hp := by simp [hpend] at hp
  powmod_accepted p hp := by simp [hpend] at hp
  hexdigit_accepted p hp := by simp [hpend] at hp

/-- An idle CORE has no command in flight (R80). -/
theorem Inv.pend_none {s : State} (h : Inv s) (hidle : s.status.busy = false) : s.pend = none := by
  simpa [hidle] using h.busy_iff_pend

/-- A CORE with a command in flight is busy (R80). -/
theorem Inv.busy_of_pend {s : State} (h : Inv s) {p : Pending} (hp : s.pend = some p) : s.status.busy = true := by
  simpa [hp] using h.busy_iff_pend

/-- The codes of R101 are legal values of ERR. -/
theorem errorCode_legal (e : ErrorKind) : (errorCode e).toNat ≤ 3 := by
  cases e <;> decide

/-- A POWMOD with a modulus meets the invariant once accepted (R76). -/
theorem Inv.accept_powmod {s : State} (hpos : s.arg2 ≠ 0) :
    Inv { s with cmd := 1, pend := some (s.capture .powmod), status := s.status.accept } where
  busy_iff_pend := rfl
  busy_not_done _ := rfl
  busy_no_err _ := rfl
  err_legal := by simp
  captured p hp := by cases hp; exact ⟨rfl, rfl, rfl⟩
  powmod_accepted p hp _ := by cases hp; exact ⟨hpos, rfl⟩
  hexdigit_accepted p hp hop := by cases hp; cases hop

/-- A HEXDIGIT up to N_MAX meets the invariant once accepted (R77). -/
theorem Inv.accept_hexdigit {s : State} (hn : s.arg0.toNat ≤ Config.nMax) :
    Inv { s with cmd := 2, pend := some (s.capture .hexdigit), status := s.status.accept } where
  busy_iff_pend := rfl
  busy_not_done _ := rfl
  busy_no_err _ := rfl
  err_legal := by simp
  captured p hp := by cases hp; exact ⟨rfl, rfl, rfl⟩
  powmod_accepted p hp hop := by cases hp; cases hop
  hexdigit_accepted p hp _ := by cases hp; exact ⟨hn, rfl⟩

/-- Every operation of the host keeps the invariant. -/
theorem Effect.keeps_inv {s t : State} (he : Effect s t) (h : Inv s) : Inv t := by
  cases he with
  | read | ignored | dropped =>
    exact ⟨h.busy_iff_pend, h.busy_not_done, h.busy_no_err, h.err_legal, h.captured, h.powmod_accepted,
      h.hexdigit_accepted⟩
  | arg0 hidle | arg1 hidle | arg2 hidle | nop hidle => exact .of_idle hidle (h.pend_none hidle) h.err_legal
  | clear hidle => exact .of_idle hidle (h.pend_none hidle) (Nat.zero_le 3)
  | illegal hidle | invalidArgument hidle | indexRange hidle =>
    exact .of_idle hidle (h.pend_none hidle) (errorCode_legal _)
  | powmod _ hpos => exact .accept_powmod hpos
  | hexdigit _ hn => exact .accept_hexdigit hn

/-- A turn of the engine keeps the invariant: it leaves CORE idle, or as it was (R78). -/
theorem Inv.engineTurn {s : State} (h : Inv s) : Inv s.engineTurn := by
  cases hp : s.pend with
  | none => rwa [State.engineTurn_none hp]
  | some p =>
    rw [State.engineTurn_some hp]
    exact .of_idle rfl rfl h.err_legal

/-- Settles O45, by the agent that takes the step. -/
theorem everyStepKeepsTheInvariant : Obligations.EveryStepKeepsTheInvariant := by
  intro s t h hstep
  rcases step_cases hstep with ⟨rest, -, rfl⟩ | ⟨u, rest, -, -, rfl⟩ | ⟨u, rest, -, -, heffect⟩
  · exact (h.beginStep rest).engineTurn
  · exact .of_idle rfl rfl (Nat.zero_le 3)
  · exact heffect.keeps_inv (h.beginStep rest)

/-- Settles O46: the state after reset is idle. -/
theorem resetStateMeetsTheInvariant : Obligations.ResetStateMeetsTheInvariant :=
  .of_idle rfl rfl (Nat.zero_le 3)

/-! ### The legal values of STATUS -/

/-- Bits 3:2 of STATUS are 0 (R18). -/
theorem Status.toWord_reserved_low (st : Status) : st.toWord.extractLsb' 2 2 = 0 := by
  ext i hi
  simp only [Status.toWord, BitVec.getElem_extractLsb', BitVec.getLsbD_append]
  rw [if_neg (by omega), if_neg (by omega), if_pos (by omega)]
  simp

/-- Bits 31:9 of STATUS are 0 (R18). -/
theorem Status.toWord_reserved_high (st : Status) : st.toWord.extractLsb' 9 23 = 0 := by
  ext i hi
  simp only [Status.toWord, BitVec.getElem_extractLsb', BitVec.getLsbD_append]
  rw [if_neg (by omega), if_neg (by omega), if_neg (by omega), if_neg (by omega), if_neg (by omega)]
  simp

/-- Bits 7:4 of STATUS are ERR (R18). -/
theorem Status.toWord_err (st : Status) : st.toWord.extractLsb' 4 4 = st.err := by
  ext i hi
  simp only [Status.toWord, BitVec.getElem_extractLsb', BitVec.getLsbD_append]
  rw [if_neg (by omega), if_neg (by omega), if_neg (by omega), if_pos (by omega), BitVec.getLsbD_eq_getElem (by omega)]
  congr 1
  omega

/-- Settles O47: the fields of the STATUS word are those the invariant speaks of. -/
theorem statusReadsAsALegalValue : Obligations.StatusReadsAsALegalValue := by
  intro s h
  simp only [State.readReg, Status.toWord_reserved_low, Status.toWord_reserved_high, Status.toWord_err,
    Status.toWord_busy, Status.toWord_done]
  refine ⟨trivial, trivial, h.err_legal, ?_, ?_⟩
  · rintro ⟨hbusy, hdone⟩
    simp [h.busy_not_done hbusy] at hdone
  · rintro ⟨hbusy, herr⟩
    exact herr (h.busy_no_err hbusy)

end Sys2Proof.Machine
end

section
/-! PROOFS. The engine (41_commands.md section 3): a completion (R78) falls after any host steps (R43, R79), and cannot be
put off for ever (R79); POWMOD from issue to completion (R87). -/

namespace Sys2Proof.Machine

/-! ### Turns of the engine and of the host -/

/-- R78: in a turn of the engine the command in flight completes. -/
theorem step_engine_some {s : State} {p : Pending} {rest : List Turn} (hp : s.pend = some p)
    (ht : s.turns = .engine :: rest) : step s = .next ((s.beginStep rest).complete p) := by
  rw [step_cons ht, takeTurn, State.engineTurn_some (by simpa using hp)]

/-- R79: with the schedule used up, the command in flight completes (log 1). -/
theorem step_nil_some {s : State} {p : Pending} (hp : s.pend = some p) (ht : s.turns = []) :
    step s = .next ((s.beginStep []).complete p) := by
  rw [step_nil ht, State.engineTurn_some (by simpa using hp)]

/-- Settles O26: the engine's turn is `State.complete`, whose value is the command's under the invariant; with nothing in
flight it is no change. -/
theorem completionWritesResultAndStatus : Obligations.CompletionWritesResultAndStatus := by
  refine ⟨fun s p h hp => ?_, fun s hp => step_engine_idle (s := s.facing .engine) hp rfl⟩
  refine ⟨Datapath.free s.freeCtr, s.freeCtr + 1, (step_engine_some (s := s.facing .engine) hp rfl).trans ?_⟩
  rw [← h.complete_result hp]
  rfl

/-- No operation of the host touches the schedule. -/
theorem Effect.turns_eq {s t : State} (h : Effect s t) : t.turns = s.turns := by
  cases h <;> rfl

/-- Whatever the host does in its turn, a command in flight stays in flight, and RESULT keeps its value (R43). -/
theorem step_host_inFlight {s : State} {p : Pending} {u : Turn} {rest : List Turn} (h : Inv s) (hp : s.pend = some p)
    (ht : s.turns = u :: rest) (hu : u.isHost = true) :
    ∃ t, step s = .next t ∧ Inv t ∧ t.pend = some p ∧ t.result = s.result ∧ t.turns = rest := by
  obtain ⟨t, hturn, heffect⟩ := takeTurn_host hu (s.beginStep rest)
  have hstep : step s = .next t := (step_cons ht).trans hturn
  obtain ⟨hpend, -⟩ := heffect.keeps_inFlight (h.busy_of_pend hp)
  exact ⟨t, hstep, everyStepKeepsTheInvariant s t h hstep, hpend.trans hp, heffect.result_eq, heffect.turns_eq⟩

/-- The same after any number of turns of the host. -/
theorem runSteps_hosts_inFlight {s : State} {p : Pending} {hosts rest : List Turn} (h : Inv s) (hp : s.pend = some p)
    (ht : s.turns = hosts ++ rest) (hhosts : ∀ u ∈ hosts, u.isHost = true) :
    ∃ t, runSteps hosts.length s = .next t ∧ Inv t ∧ t.pend = some p ∧ t.result = s.result ∧ t.turns = rest := by
  induction hosts generalizing s with
  | nil => exact ⟨s, runSteps_zero s, h, hp, rfl, ht⟩
  | cons u hosts ih =>
    obtain ⟨s', hstep, h', hp', hresult', ht'⟩ := step_host_inFlight h hp ht (hhosts u List.mem_cons_self)
    obtain ⟨t, hrun, ht⟩ := ih h' hp' ht' fun u hu => hhosts u (List.mem_cons_of_mem _ hu)
    rw [hresult'] at ht
    exact ⟨t, (runSteps_succ hstep _).trans hrun, ht⟩

/-- A turn that resets CORE does so (R116). -/
theorem step_of_isReset {s : State} {u : Turn} {rest : List Turn} (ht : s.turns = u :: rest) (hu : u.isReset = true) :
    step s = .next (s.beginStep rest).resetCore := by
  cases u with
  | engine | platform => cases hu
  | pins q =>
    obtain ⟨hrst, hsel⟩ : q.rst = true ∧ q.sel = false := by simpa [Turn.isReset] using hu
    rw [step_cons ht, takeTurn, pinsTurn, if_pos hrst, hsel]
    rfl

/-- Settles O27: the host's turns keep the invariant and the command in flight; the engine's turn after them completes
it. -/
theorem completionMayFallAfterAnyHostSteps : Obligations.CompletionMayFallAfterAnyHostSteps := by
  intro s p hosts rest h hp ht hhosts
  obtain ⟨s₁, hrun, h₁, hp₁, hresult, ht₁⟩ := runSteps_hosts_inFlight h hp ht hhosts
  refine ⟨⟨s₁, hrun, hp₁, hresult⟩, _, (runSteps_add hrun 1).trans (runSteps_succ (step_engine_some hp₁ ht₁) 0), rfl,
    (h₁.beginStep rest).complete_result hp₁, rfl⟩

/-- Settles O28, by induction over the schedule: a turn of the host leaves the command in flight and a shorter schedule;
a turn of the engine, or none left, completes it; a reset abandons it. -/
theorem acceptedCommandCompletesUnlessReset : Obligations.AcceptedCommandCompletesUnlessReset := by
  intro s p h hp hturns
  induction hs : s.turns generalizing s with
  | nil =>
    exact ⟨1, _, Nat.le_refl 1, runSteps_succ (step_nil_some hp hs) 0, rfl,
      .inl ⟨(h.beginStep []).complete_result hp, rfl, rfl⟩⟩
  | cons u rest ih =>
    rw [hs] at hturns
    obtain ⟨hu, hrest⟩ := List.forall_mem_cons.mp hturns
    have hcases : u = .engine ∨ u.isHost = true ∨ u.isReset = true := by
      cases u with
      | engine => exact .inl rfl
      | pins q => exact .inr hu
      | platform a => exact .inr hu
    rcases hcases with rfl | hhost | hreset
    · exact ⟨1, _, by simp, runSteps_succ (step_engine_some hp hs) 0, rfl,
        .inl ⟨(h.beginStep rest).complete_result hp, rfl, rfl⟩⟩
    · obtain ⟨s', hstep, h', hp', -, rfl⟩ := step_host_inFlight h hp hs hhost
      obtain ⟨k, t, hk, hrun, hpend, hend⟩ := ih s' h' hp' hrest rfl
      refine ⟨k + 1, t, by simpa using hk, (runSteps_succ hstep k).trans hrun, hpend, hend.imp_right ?_⟩
      rintro ⟨⟨v, hv, hvreset⟩, hvisible⟩
      exact ⟨⟨v, List.mem_cons_of_mem u hv, hvreset⟩, hvisible⟩
    · exact ⟨1, _, by simp, runSteps_succ (step_of_isReset hs hreset) 0, rfl,
        .inr ⟨⟨u, List.mem_cons_self, hreset⟩, rfl⟩⟩

/-! ### From issue to completion -/

/-- The state in which a command has just been accepted: its word in CMD, its arguments captured, BUSY set (R76, R77). -/
def State.accepted (s : State) (v : Word) (op : PendOp) : State :=
  { s with cmd := v, pend := some (s.capture op), status := s.status.accept, rdata := none }

/-- The write of an accepted command's word, and then a turn of the engine, complete it. -/
theorem runSteps_issue_complete {s : State} {v : Word} {op : PendOp}
    (hissue : exec (.wrCmd v) { s.facing .engine with rdata := none } = .next ((s.facing .engine).accepted v op)) :
    runSteps 2 ((s.facing .engine).facing (writeTurn 0 v)) = .next ((s.accepted v op).complete (s.capture op)) := by
  have hwrite : step ((s.facing .engine).facing (writeTurn 0 v)) = .next ((s.facing .engine).accepted v op) :=
    (step_writeCmd _ v).trans hissue
  have hcomplete : step ((s.facing .engine).accepted v op) = .next ((s.accepted v op).complete (s.capture op)) :=
    step_engine_some (p := s.capture op) rfl rfl
  exact (runSteps_succ hwrite 1).trans (runSteps_succ hcomplete 0)

/-- Settles O31: the write accepts POWMOD and captures the arguments, and the completion writes their power. -/
theorem powmodLeavesThePowerInResult : Obligations.PowmodLeavesThePowerInResult := by
  intro s _ hidle hpos
  refine ⟨_, runSteps_issue_complete (execPowmod_idle_pos hidle hpos), ?_, rfl, rfl, rfl, rfl, rfl, rfl, rfl⟩
  calc ((s.accepted 1 .powmod).complete (s.capture .powmod)).result.toNat
      = (modExp s.arg0 s.arg1 s.arg2).toNat := congrArg BitVec.toNat (modexpRun_eq s.arg0 s.arg1 s.arg2 _)
    _ = s.arg0.toNat ^ s.arg1.toNat % s.arg2.toNat := modExp_toNat _ _ _ hpos

end Sys2Proof.Machine
end

section
/-! PROOFS. Which agent changes what: the arguments (R23 to R25), BUSY (R19), DONE (R20) and BUSYERR (R22), each by one
inversion of the step. -/

namespace Sys2Proof.Machine

/-! ### What a write to CMD does while idle -/

/-- What the write of a command word does while CORE is idle, by the word and its argument (R71 to R77). -/
inductive Issued (s : State) : Word → State → Prop
  | nop : Issued s 0 { s with cmd := 0 }
  | clear : Issued s 3 { s with cmd := 3, status := s.status.clear }
  | illegal (v : Word) (h : 3 < v.toNat) :
      Issued s v { s with cmd := v, status := s.status.record .illegalCommand }
  | invalidArgument (h : s.arg2 = 0) : Issued s 1 { s with cmd := 1, status := s.status.record .invalidArgument }
  | indexRange (h : Config.nMax < s.arg0.toNat) :
      Issued s 2 { s with cmd := 2, status := s.status.record .indexRange }
  | powmod (h : s.arg2 ≠ 0) :
      Issued s 1 { s with cmd := 1, pend := some (s.capture .powmod), status := s.status.accept }
  | hexdigit (h : s.arg0.toNat ≤ Config.nMax) :
      Issued s 2 { s with cmd := 2, pend := some (s.capture .hexdigit), status := s.status.accept }

/-- A write to CMD while idle issues its word. -/
theorem exec_wrCmd_idle {s : State} (hidle : s.status.busy = false) (v : Word) :
    ∃ t, exec (.wrCmd v) s = .next t ∧ Issued s v t := by
  by_cases hillegal : cmdRsv v ≠ 0#28 ∨ 4 ≤ (cmdOp v).toNat
  · exact ⟨_, (execWrCmd_of_illegal hillegal s).trans (execIllegal_idle hidle v),
      .illegal v ((illegal_word_iff v).mp hillegal)⟩
  · rcases command_word_cases hillegal with rfl | rfl | rfl | rfl
    · exact ⟨_, execNop_idle hidle, .nop⟩
    · by_cases h0 : s.arg2 = 0
      · exact ⟨_, execPowmod_idle_zero hidle h0, .invalidArgument h0⟩
      · exact ⟨_, execPowmod_idle_pos hidle h0, .powmod h0⟩
    · rcases Nat.lt_or_ge Config.nMax s.arg0.toNat with hn | hn
      · exact ⟨_, execHexdigit_idle_beyond hidle hn, .indexRange hn⟩
      · exact ⟨_, execHexdigit_idle_ok hidle hn, .hexdigit hn⟩
    · exact ⟨_, execClear_idle hidle, .clear⟩

/-! ### What a transaction does to STATUS -/

/-- A write to an argument register while idle puts its value there (R66 to R68). -/
theorem exec_argWrite_idle {i : Instr} (ha : isArgWrite i = true) {s : State} (hidle : s.status.busy = false) :
    (∃ v, i = .wrArg0 v ∧ exec i s = .next { s with arg0 := v }) ∨
    (∃ v, i = .wrArg1 v ∧ exec i s = .next { s with arg1 := v }) ∨
    (∃ v, i = .wrArg2 v ∧ exec i s = .next { s with arg2 := v }) := by
  have hkept (w : State → State) : (.next (s.guardedWrite w) : Result) = .next (w s) :=
    congrArg Host.Outcome.next (State.guardedWrite_idle hidle w)
  cases i with
  | wrArg0 v => exact .inl ⟨v, rfl, hkept _⟩
  | wrArg1 v => exact .inr (.inl ⟨v, rfl, hkept _⟩)
  | wrArg2 v => exact .inr (.inr ⟨v, rfl, hkept _⟩)
  | _ => cases ha

/-- A bus transaction that writes to CMD is WR.CMD (R48). -/
theorem decodeBus_cmdWrite {b : BitVec 36} (hc : isCmdWrite (decodeBus b) = true) : ∃ v, decodeBus b = .wrCmd v := by
  cases hi : decodeBus b with
  | wrCmd v => exact ⟨v, rfl⟩
  | nop | powmod | hexdigit | clear | illegal =>
    unfold decodeBus at hi
    split at hi <;> cases hi
  | _ => rw [hi] at hc; cases hc

/-- A transaction reaches STATUS in two ways: a guarded write is dropped while busy, or a command is issued while idle. -/
theorem exec_bus_status {b : BitVec 36} {s t : State} (h : exec (decodeBus b) s = .next t) :
    t.status = s.status ∨
    (s.status.busy = true ∧ (isCmdWrite (decodeBus b) = true ∨ isArgWrite (decodeBus b) = true) ∧
      t = { s with status := s.status.drop }) ∨
    (s.status.busy = false ∧ ∃ v, decodeBus b = .wrCmd v ∧ Issued s v t) := by
  by_cases hwrite : isCmdWrite (decodeBus b) = true ∨ isArgWrite (decodeBus b) = true
  · cases hbusy : s.status.busy with
    | true =>
      rw [writesWhileBusyAreDropped _ s hbusy hwrite] at h
      exact .inr (.inl ⟨rfl, hwrite, (Host.Outcome.next.inj h).symm⟩)
    | false =>
      rcases hwrite with hc | ha
      · obtain ⟨v, hv⟩ := decodeBus_cmdWrite hc
        obtain ⟨t', hexec, hissued⟩ := exec_wrCmd_idle hbusy v
        rw [hv, hexec] at h
        cases h
        exact .inr (.inr ⟨rfl, v, hv, hissued⟩)
      · rcases exec_argWrite_idle ha hbusy with ⟨v, -, hexec⟩ | ⟨v, -, hexec⟩ | ⟨v, -, hexec⟩ <;>
        · rw [hexec] at h
          cases h
          exact .inl rfl
  · rw [not_or, Bool.not_eq_true, Bool.not_eq_true] at hwrite
    obtain ⟨hc, ha⟩ := hwrite
    obtain ⟨r, hexec⟩ := exec_only_rdata hc ha s
    rw [hexec] at h
    cases h
    exact .inl rfl

/-! ### What a step does to STATUS -/

/-- The ways in which a step that begins in `s` can change STATUS. -/
inductive StatusChange (s : State) : State → Prop
  /-- The command in flight completes, in a turn of the engine. -/
  | completed (rest : List Turn) (p : Pending) (hp : s.pend = some p)
      (hturn : s.turns = [] ∨ ∃ rest, s.turns = .engine :: rest) : StatusChange s ((s.beginStep rest).complete p)
  /-- The turn is a reset. -/
  | reset (u : Turn) (rest : List Turn) (hturns : s.turns = u :: rest) (hreset : u.isReset = true) :
      StatusChange s (s.beginStep rest).resetCore
  /-- The operation is a write that BUSY drops. -/
  | dropped (u : Turn) (rest : List Turn) (i : Instr) (hbusy : s.status.busy = true) (hturns : s.turns = u :: rest)
      (hop : u.operation = some i) (hwrite : isCmdWrite i = true ∨ isArgWrite i = true) :
      StatusChange s { s.beginStep rest with status := s.status.drop }
  /-- The operation is a write to CMD while idle. -/
  | issued (u : Turn) (rest : List Turn) (v : Word) (t : State) (hidle : s.status.busy = false)
      (hturns : s.turns = u :: rest) (hop : u.operation = some (.wrCmd v)) (hissued : Issued (s.beginStep rest) v t) :
      StatusChange s t

/-- A step leaves STATUS alone or changes it in one of the listed ways. -/
theorem step_status {s t : State} (h : step s = .next t) : t.status = s.status ∨ StatusChange s t := by
  rcases step_cases_operation h with ⟨rest, hturns, rfl⟩ | ⟨u, rest, hturns, hreset, rfl⟩ |
    ⟨u, rest, i, hturns, hop, hexec⟩ | ⟨u, rest, -, -, rfl⟩
  · cases hp : s.pend with
    | none =>
      rw [State.engineTurn_none (s := s.beginStep rest) hp]
      exact .inl rfl
    | some p =>
      rw [State.engineTurn_some (s := s.beginStep rest) hp]
      exact .inr (.completed rest p hp (hturns.imp And.left fun ht => ⟨rest, ht⟩))
  · exact .inr (.reset u rest hturns hreset)
  · obtain ⟨b, rfl⟩ := Turn.operation_bus hop
    rcases exec_bus_status hexec with hsame | ⟨hbusy, hwrite, rfl⟩ | ⟨hidle, v, hv, hissued⟩
    · exact .inl hsame
    · exact .inr (.dropped u rest _ hbusy hturns hop hwrite)
    · exact .inr (.issued u rest v t hidle hturns (hop.trans (congrArg some hv)) hissued)
  · exact .inl rfl

/-- Settles O50: of the changes of STATUS, an acceptance alone sets BUSY, and a completion or a reset alone clears it. -/
theorem busyChangesOnlyAsItsRuleSays : Obligations.BusyChangesOnlyAsItsRuleSays := by
  intro s t h hstep
  rcases step_status hstep with hsame | hchange
  · rw [hsame]
    exact ⟨fun h0 h1 => by simp [h0] at h1, fun h1 h0 => by simp [h1] at h0⟩
  · cases hchange with
    | completed rest p hp hturn =>
      exact ⟨nofun, fun _ _ => .inl ⟨hturn, p, hp, rfl, (h.beginStep rest).complete_result hp, rfl⟩⟩
    | reset u rest hturns hreset => exact ⟨nofun, fun _ _ => .inr ⟨u, rest, hturns, hreset⟩⟩
    | dropped u rest i hbusy =>
      exact ⟨fun h0 => by simp [hbusy] at h0, fun _ h0 => by simp [hbusy] at h0⟩
    | issued u rest v _ hidle hturns hop hissued =>
      refine ⟨fun _ hbusy => ⟨u, rest, v, hturns, hop, ?_⟩, fun hbusy => by simp [hidle] at hbusy⟩
      cases hissued with
      | powmod hpos => exact ⟨.inl ⟨rfl, hpos⟩, rfl, h.pend_none hidle, rfl⟩
      | hexdigit hn => exact ⟨.inr ⟨rfl, hn⟩, rfl, h.pend_none hidle, rfl⟩
      | nop | clear | illegal | invalidArgument | indexRange => simp [hidle] at hbusy

/-- Settles O51: of the changes of STATUS, a completion and the errors at issue set DONE; an acceptance, CLEAR and a reset
clear it. -/
theorem doneChangesOnlyAsItsRuleSays : Obligations.DoneChangesOnlyAsItsRuleSays := by
  intro s t h hstep
  rcases step_status hstep with hsame | hchange
  · rw [hsame]
    exact ⟨fun h0 h1 => by simp [h0] at h1, fun h1 h0 => by simp [h1] at h0⟩
  · cases hchange with
    | completed rest p hp hturn =>
      exact ⟨fun _ _ => .inl ⟨hturn, p, hp, rfl, (h.beginStep rest).complete_result hp⟩, fun _ h0 => by simp at h0⟩
    | reset u rest hturns hreset => exact ⟨nofun, fun _ _ => .inr ⟨u, rest, hturns, hreset⟩⟩
    | dropped u rest i hbusy =>
      exact ⟨fun h0 h1 => by simp [h0] at h1, fun h1 h0 => by simp [h1] at h0⟩
    | issued u rest v _ hidle hturns hop hissued =>
      constructor
      · intro h0 hdone
        refine .inr ⟨hidle, ?_⟩
        cases hissued with
        | illegal _ hv => exact ⟨hidle, u, rest, _, hturns, hop, rfl, .inl ⟨hv, rfl⟩⟩
        | invalidArgument hm => exact ⟨hidle, u, rest, _, hturns, hop, rfl, .inr (.inl ⟨rfl, hm, rfl⟩)⟩
        | indexRange hn => exact ⟨hidle, u, rest, _, hturns, hop, rfl, .inr (.inr ⟨rfl, hn, rfl⟩)⟩
        | nop | clear | powmod | hexdigit => simp [h0] at hdone
      · intro h1 hdone
        refine .inl ⟨hidle, u, rest, v, hturns, hop, ?_⟩
        cases hissued with
        | powmod => exact ⟨rfl, .inl ⟨rfl, rfl⟩⟩
        | hexdigit => exact ⟨rfl, .inr (.inl ⟨rfl, rfl⟩)⟩
        | clear => exact ⟨rfl, .inr (.inr rfl)⟩
        | nop | illegal | invalidArgument | indexRange => simp [h1] at hdone

/-- Settles O52: of the changes of STATUS, a dropped write alone sets BUSYERR, and CLEAR or a reset alone clears it. -/
theorem busyErrIsSticky : Obligations.BusyErrIsSticky := by
  intro s t hstep
  rcases step_status hstep with hsame | hchange
  · rw [hsame]
    exact ⟨fun h0 h1 => by simp [h0] at h1, fun h1 h0 => by simp [h1] at h0⟩
  · cases hchange with
    | completed rest p => exact ⟨fun h0 h1 => by simp [h0] at h1, fun h1 h0 => by simp [h1] at h0⟩
    | reset u rest hturns hreset => exact ⟨nofun, fun _ _ => .inr ⟨u, rest, hturns, hreset⟩⟩
    | dropped u rest i hbusy hturns hop hwrite =>
      exact ⟨fun _ _ => ⟨hbusy, ⟨u, rest, i, hturns, hop, hwrite⟩, rfl, rfl, rfl, rfl, rfl⟩, nofun⟩
    | issued u rest v _ hidle hturns hop hissued =>
      cases hissued with
      | clear => exact ⟨nofun, fun _ _ => .inl ⟨hidle, u, rest, hturns, hop⟩⟩
      | nop | illegal | invalidArgument | indexRange | powmod | hexdigit =>
        exact ⟨fun h0 h1 => by simp [h0] at h1, fun h1 h0 => by simp [h1] at h0⟩

/-! ### The arguments -/

/-- Settles O49, by the agent that takes the step; of the operations only a write to an argument register, while idle,
reaches one. -/
theorem argumentsChangeOnlyByHostWriteOrReset : Obligations.ArgumentsChangeOnlyByHostWriteOrReset := by
  intro s t hstep
  rcases step_cases_operation hstep with ⟨rest, -, rfl⟩ | ⟨u, rest, hturns, hreset, rfl⟩ |
    ⟨u, rest, i, hturns, hop, hexec⟩ | ⟨u, rest, -, -, rfl⟩
  · exact .inl ⟨State.engineTurn_keeps State.arg0 _ fun _ => rfl, State.engineTurn_keeps State.arg1 _ fun _ => rfl,
      State.engineTurn_keeps State.arg2 _ fun _ => rfl⟩
  · exact .inr (.inl ⟨u, rest, hturns, hreset, rfl, rfl, rfl⟩)
  · cases ha : isArgWrite i with
    | false =>
      obtain ⟨t', hexec', hargs⟩ := exec_not_argWrite_args ha (s.beginStep rest)
      rw [hexec'] at hexec
      cases hexec
      exact .inl hargs
    | true =>
      cases hbusy : (s.beginStep rest).status.busy with
      | true =>
        rw [exec_argWrite_busy ha hbusy] at hexec
        cases hexec
        exact .inl ⟨rfl, rfl, rfl⟩
      | false =>
        refine .inr (.inr ⟨hbusy, u, rest, ?_⟩)
        rcases exec_argWrite_idle ha hbusy with ⟨v, rfl, hkept⟩ | ⟨v, rfl, hkept⟩ | ⟨v, rfl, hkept⟩ <;>
          obtain rfl := Host.Outcome.next.inj (hkept.symm.trans hexec)
        · exact ⟨v, hturns, .inl ⟨hop, rfl, rfl, rfl⟩⟩
        · exact ⟨v, hturns, .inr (.inl ⟨hop, rfl, rfl, rfl⟩)⟩
        · exact ⟨v, hturns, .inr (.inr ⟨hop, rfl, rfl, rfl⟩)⟩
  · exact .inl ⟨rfl, rfl, rfl⟩

end Sys2Proof.Machine
end

section
/-! PROOFS. The hidden registers (R31, R32): nothing the host sees depends on them. -/

namespace Sys2Proof.Machine

/-! ### Outcomes the host cannot tell apart -/

/-- What the host can see of an outcome. -/
def visibleOutcome : Result → Result
  | .next s => .next s.visible
  | .fault r => .fault r
  | .refused r => .refused r

/-- The host cannot tell two outcomes apart exactly when it sees the same of both. -/
theorem sameOutcome_iff {r r' : Result} : sameOutcome r r' ↔ visibleOutcome r = visibleOutcome r' := by
  cases r <;> cases r' <;> simp [sameOutcome, visibleOutcome]

/-! ### Changes of the state that keep what is visible apart from what is hidden -/

/-- What is visible after `f` depends on nothing hidden. -/
def ActsOnVisible (f : State → State) : Prop := ∀ s, (f s).visible = (f s.visible).visible

theorem State.busRead_actsOnVisible (r : Reg) : ActsOnVisible (State.busRead · r) := by
  intro s
  cases r <;> rfl

theorem State.issuePowMod_actsOnVisible : ActsOnVisible State.issuePowMod := by
  intro s
  by_cases h : s.arg2 = 0#32
  · rw [State.issuePowMod_zero h, State.issuePowMod_zero (s := s.visible) h]
    rfl
  · rw [State.issuePowMod_pos h, State.issuePowMod_pos (s := s.visible) h]
    rfl

theorem State.issueHexDigit_actsOnVisible : ActsOnVisible State.issueHexDigit := by
  intro s
  rcases Nat.lt_or_ge Config.nMax s.arg0.toNat with h | h
  · rw [State.issueHexDigit_beyond h, State.issueHexDigit_beyond (s := s.visible) h]
    rfl
  · rw [State.issueHexDigit_ok h, State.issueHexDigit_ok (s := s.visible) h]
    rfl

/-- The busy check reads STATUS alone. -/
theorem ActsOnVisible.guardedWrite {w : State → State} (hw : ActsOnVisible w) :
    ActsOnVisible (State.guardedWrite · w) := by
  intro s
  cases h : s.status.busy with
  | true => simp only [State.guardedWrite_busy h, State.guardedWrite_busy (s := s.visible) h]; rfl
  | false => simp only [State.guardedWrite_idle h, State.guardedWrite_idle (s := s.visible) h, hw s]

/-- Issuing a command acts on what is visible, if the command's own effect does. -/
theorem ActsOnVisible.issue {e : State → State} (he : ActsOnVisible e) (v : Word) :
    ActsOnVisible (State.issue · v e) :=
  ActsOnVisible.guardedWrite fun s => he { s with cmd := v }

theorem State.commandEffect_actsOnVisible (v : Word) : ActsOnVisible (State.commandEffect v) := by
  by_cases hillegal : cmdRsv v ≠ 0#28 ∨ 4 ≤ (cmdOp v).toNat
  · have heffect : State.commandEffect v = fun s => s.raiseError .illegalCommand := funext fun _ => if_pos hillegal
    rw [heffect]
    exact fun _ => rfl
  · rcases command_word_cases hillegal with rfl | rfl | rfl | rfl
    · exact fun _ => rfl
    · exact State.issuePowMod_actsOnVisible
    · exact State.issueHexDigit_actsOnVisible
    · exact fun _ => rfl

/-- A completion's value does not depend on what the datapath registers held, and it leaves them with free values. -/
theorem State.engineTurn_actsOnVisible : ActsOnVisible State.engineTurn := by
  intro s
  cases hp : s.pend with
  | none => rw [State.engineTurn_none hp, State.engineTurn_none (s := s.visible) hp]; rfl
  | some p =>
    rw [State.engineTurn_some hp, State.engineTurn_some (s := s.visible) hp]
    simp only [State.visible, State.complete, completionRun_value p s.datapath
      { modexp := ModexpRegs.zero, bbpx := BbpxRegs.zero }]
    rfl

/-! ### Operations, turns and steps -/

/-- An operation's outcome depends on nothing hidden. -/
theorem exec_visible (i : Instr) (s : State) : sameOutcome (exec i s) (exec i s.visible) := by
  have issue (v : Word) (e : State → State) (he : ActsOnVisible e) :
      sameOutcome (.next (s.issue v e)) (.next (s.visible.issue v e)) := he.issue v s
  have argWrite (w : State → State) (hw : ActsOnVisible w) :
      sameOutcome (.next (s.guardedWrite w)) (.next (s.visible.guardedWrite w)) := hw.guardedWrite s
  cases i with
  | rdCmd | rdStatus | rdArg0 | rdArg1 | rdArg2 | rdResult | rdRsv6 | rdRsv7 => exact State.busRead_actsOnVisible _ s
  | wrStatus | wrResult | wrRsv6 | wrRsv7 => exact rfl
  | wrArg0 | wrArg1 | wrArg2 => exact argWrite _ fun _ => rfl
  | nop | clear | illegal => exact issue _ _ fun _ => rfl
  | powmod => exact issue _ _ State.issuePowMod_actsOnVisible
  | hexdigit => exact issue _ _ State.issueHexDigit_actsOnVisible
  | wrCmd v =>
    simp only [exec, execWrCmd_eq_issue]
    exact issue _ _ (State.commandEffect_actsOnVisible v)

/-- So does that of a step of the ports. -/
theorem pinsTurn_visible (p : Pins) (s : State) : sameOutcome (pinsTurn p s) (pinsTurn p s.visible) := by
  unfold pinsTurn
  cases p.rst <;> cases p.sel
  · exact rfl
  · exact exec_visible _ s
  · exact rfl
  · exact rfl

/-- So does that of any agent's turn. -/
theorem takeTurn_visible (u : Turn) (s : State) : sameOutcome (takeTurn u s) (takeTurn u s.visible) := by
  cases u with
  | engine => exact State.engineTurn_actsOnVisible s
  | pins p => exact pinsTurn_visible p s
  | platform a =>
    simp only [takeTurn]
    cases a.toPins with
    | ok p => exact pinsTurn_visible p s
    | error r => exact rfl

/-- So does that of a step. -/
theorem step_visible (s : State) : sameOutcome (step s) (step s.visible) := by
  cases ht : s.turns with
  | nil =>
    rw [step_nil ht, step_nil (s := s.visible) ht]
    exact State.engineTurn_actsOnVisible (s.beginStep [])
  | cons u rest =>
    rw [step_cons ht, step_cons (s := s.visible) ht]
    exact takeTurn_visible u (s.beginStep rest)

/-- Settles O54: each of the two steps cannot be told from the step of what the states show, which is the same. -/
theorem datapathRegistersAreUnobservable : Obligations.DatapathRegistersAreUnobservable := by
  intro s t h
  rw [sameOutcome_iff]
  calc visibleOutcome (step s) = visibleOutcome (step s.visible) := sameOutcome_iff.mp (step_visible s)
    _ = visibleOutcome (step t.visible) := by rw [h]
    _ = visibleOutcome (step t) := (sameOutcome_iff.mp (step_visible t)).symm

end Sys2Proof.Machine
end

section
/-! PROOFS. The platform's view of the window (20_memory.md section 2, R35 to R37), and host programs as they are written
(30_encoding.md section 3, R54, R56). -/

namespace Sys2Proof.Machine

/-! ### The window -/

/-- An aligned word of the window is its word address (R35). -/
theorem windowAddr_word (a : BitVec 3) : windowAddr (Config.coreBase + 4 * a.toNat) 4 = .ok a := by
  have ha := a.isLt
  have hoff : (Config.coreBase + 4 * a.toNat - Config.coreBase) / 4 = a.toNat := by omega
  have hin : ¬(Config.coreBase + 4 * a.toNat < Config.coreBase ∨
      Config.coreBase + 4 * Config.nReg ≤ Config.coreBase + 4 * a.toNat) := by
    unfold Config.nReg
    omega
  rw [windowAddr, if_neg (not_not.mpr rfl), if_neg hin, if_neg (by omega), hoff, BitVec.ofNat_toNat, BitVec.setWidth_eq]

/-- An access that is no whole word has no word address (R37). -/
theorem windowAddr_not_word (addr : Nat) {size : Nat} (h : size ≠ 4) : windowAddr addr size = .error .notWholeWord :=
  if_pos h

/-- A misaligned word of the window has no word address (R37). -/
theorem windowAddr_misaligned {off : Nat} (hin : off < 32) (hoff : off % 4 ≠ 0) :
    windowAddr (Config.coreBase + off) 4 = .error .misaligned := by
  have hwin : ¬(Config.coreBase + off < Config.coreBase ∨
      Config.coreBase + 4 * Config.nReg ≤ Config.coreBase + off) := by
    unfold Config.nReg
    omega
  rw [windowAddr, if_neg (not_not.mpr rfl), if_neg hwin, if_pos (by omega)]

/-- A byte below a shorter word: the shift makes room for it (R36). -/
theorem shiftLeft_or_eq_append {n : Nat} (w : BitVec n) (b : Byte) :
    w.setWidth 32 <<< 8 ||| b.setWidth 32 = (w ++ b).setWidth 32 := by
  ext i hi
  simp only [BitVec.getElem_or, BitVec.getElem_shiftLeft, BitVec.getElem_setWidth, BitVec.getLsbD_append]
  by_cases h : i < 8
  · simp [h]
  · simp [h, BitVec.getLsbD_of_ge b i (by omega)]

/-- Four bytes in little-endian order make up a word (R36). -/
theorem wordOfLanes_four (b0 b1 b2 b3 : Byte) : wordOfLanes [b0, b1, b2, b3] = b3 ++ b2 ++ b1 ++ b0 := by
  have hlast : (0 : Word) <<< 8 ||| b3.setWidth 32 = b3.setWidth 32 := by
    rw [BitVec.ofNat_eq_ofNat, BitVec.zero_shiftLeft, BitVec.zero_or]
  simp only [wordOfLanes, hlast, shiftLeft_or_eq_append]
  exact BitVec.setWidth_eq _

/-- A read of the platform that has a word address is the read transaction there (R35). -/
theorem toPins_read {addr size : Nat} {a : BitVec 3} (h : windowAddr addr size = .ok a) :
    (PlatformAccess.read addr size).toPins = .ok (Pins.transaction false a 0) := by
  simp only [PlatformAccess.toPins, h]

/-- A write of the platform that has a word address is the write transaction there (R35). -/
theorem toPins_write {addr : Nat} {bytes : List Byte} {a : BitVec 3} (h : windowAddr addr bytes.length = .ok a) :
    (PlatformAccess.write addr bytes).toPins = .ok (Pins.transaction true a (wordOfLanes bytes)) := by
  simp only [PlatformAccess.toPins, h]

/-- A platform access that is a transaction runs as that transaction (R35). -/
theorem step_platform_ok {s : State} {acc : PlatformAccess} {p : Pins} (h : acc.toPins = .ok p) :
    step (s.facing (.platform acc)) = step (s.facing (.pins p)) := by
  simp only [step_facing, takeTurn, h]

/-- A platform access that is none is refused (R37). -/
theorem step_platform_error {s : State} {acc : PlatformAccess} {r : Refusal} (h : acc.toPins = .error r) :
    step (s.facing (.platform acc)) = .refused r := by
  simp only [step_facing, takeTurn, h]

/-- A platform access without a word address is refused for the same reason. -/
theorem step_read_error (s : State) {addr size : Nat} {r : Refusal} (h : windowAddr addr size = .error r) :
    step (s.facing (.platform (.read addr size))) = .refused r :=
  step_platform_error (by simp only [PlatformAccess.toPins, h])

theorem step_write_error (s : State) {addr : Nat} {bytes : List Byte} {r : Refusal}
    (h : windowAddr addr bytes.length = .error r) :
    step (s.facing (.platform (.write addr bytes))) = .refused r :=
  step_platform_error (by simp only [PlatformAccess.toPins, h])

/-- Settles O55: the access has its word address, and its bytes make up the word. -/
theorem platformWordAccessIsTheTransaction : Obligations.PlatformWordAccessIsTheTransaction := by
  intro s a b0 b1 b2 b3
  have hwrite := toPins_write (bytes := [b0, b1, b2, b3]) (windowAddr_word a)
  rw [wordOfLanes_four] at hwrite
  exact ⟨step_platform_ok (toPins_read (windowAddr_word a)), step_platform_ok hwrite⟩

/-- Settles O57: the access has no word address, by its width or by its alignment. -/
theorem subWordAndMisalignedAccessesAreRefused : Obligations.SubWordAndMisalignedAccessesAreRefused := by
  intro s addr
  refine ⟨fun size h => step_read_error s (windowAddr_not_word addr h),
    fun bytes h => step_write_error s (windowAddr_not_word addr h), fun off hin hoff => ?_⟩
  have hmis := windowAddr_misaligned hin hoff
  exact ⟨step_read_error s hmis, fun _ _ _ _ => step_write_error s hmis⟩

/-- A byte offset of the window is a word address and a lane (R36). -/
theorem State.windowByte_lane (s : State) (a : BitVec 3) {j : Nat} (hj : j < 4) :
    s.windowByte (4 * a.toNat + j) = lane (s.readReg (Reg.ofAddr a)) j := by
  have hdiv : (4 * a.toNat + j) / 4 = a.toNat := by omega
  have hmod : (4 * a.toNat + j) % 4 = j := by omega
  rw [State.windowByte, hdiv, hmod, BitVec.ofNat_toNat, BitVec.setWidth_eq]

/-- The lanes of a word make it up, the first the least significant (R36). -/
theorem lanes_append (w : Word) : lane w 3 ++ lane w 2 ++ lane w 1 ++ lane w 0 = w := by
  have happend (start len len' : Nat) :
      w.extractLsb' (start + len) len' ++ w.extractLsb' start len = w.extractLsb' start (len' + len) :=
    BitVec.extractLsb'_append_extractLsb'_eq_extractLsb' rfl
  calc lane w 3 ++ lane w 2 ++ lane w 1 ++ lane w 0
      = w.extractLsb' 16 16 ++ lane w 1 ++ lane w 0 := congrArg (· ++ lane w 1 ++ lane w 0) (happend 16 8 8)
    _ = w.extractLsb' 8 24 ++ lane w 0 := congrArg (· ++ lane w 0) (happend 8 8 16)
    _ = w.extractLsb' 0 32 := happend 0 8 24
    _ = w := BitVec.extractLsb'_eq_self

/-- Settles O56: each byte is a lane of the register at its word address, and the lanes make it up. -/
theorem byteLanesAreLittleEndian : Obligations.ByteLanesAreLittleEndian := by
  intro s a
  refine ⟨fun j hj => s.windowByte_lane a hj, ?_⟩
  have hlow := s.windowByte_lane a (j := 0) (by omega)
  rw [Nat.add_zero] at hlow
  rw [s.windowByte_lane a (by omega), s.windowByte_lane a (by omega), s.windowByte_lane a (by omega), hlow]
  exact lanes_append _

/-! ### Host programs -/

/-- The transcription of a program of one line is that of the line's expansion (R54). -/
theorem transcribe_line (n : Nat) (l : HostLine) :
    transcribe n [l] = allOrRefusal ((expandLine n l).flatMap (lineAct n)) := by
  simp only [transcribe]
  cases allOrRefusal ((expandLine n l).flatMap (lineAct n)) with
  | ok acts => simp
  | error r => rfl

/-- Every register of the window has a name that a WR line accepts (R53). -/
theorem regAddr_ok (n : Nat) {reg : String}
    (h : reg ∈ ["CMD", "STATUS", "ARG0", "ARG1", "ARG2", "RESULT", "RSV6", "RSV7"]) : ∃ a, regAddr n reg = .ok a := by
  simp only [List.mem_cons, List.not_mem_nil, or_false] at h
  rcases h with rfl | rfl | rfl | rfl | rfl | rfl | rfl | rfl <;> exact ⟨_, rfl⟩

/-- A number of 32 bits stands for its word (R53). -/
theorem valueWord_num (n : Nat) {v : Nat} (h : v < 2 ^ 32) : valueWord n (.num v) = .ok (BitVec.ofNat 32 v) :=
  if_pos h

/-- A number of more bits is refused (R56). -/
theorem valueWord_wide (n : Nat) {v : Nat} (h : 2 ^ 32 ≤ v) : valueWord n (.num v) = .error (.valueTooWide n v) :=
  if_neg (Nat.not_lt.mpr h)

/-- A WR line whose register and value are known is the write transaction (R53). -/
theorem wrAct_ok {n : Nat} {reg : String} {value : HostValue} {a : BitVec 3} {ctl : BitVec 4} {w : Word}
    (ha : regAddr n reg = .ok a) (hctl : BitVec.ofBool true ++ a = ctl) (hw : valueWord n value = .ok w) :
    wrAct n reg value = .ok (.transaction (ctl ++ w)) := by
  simp only [wrAct, ha, hw, packBus, hctl]

/-- A WR line of a known register with a value too wide is refused for the value (R56). -/
theorem wrAct_wide {n v : Nat} {reg : String}
    (h : reg ∈ ["CMD", "STATUS", "ARG0", "ARG1", "ARG2", "RESULT", "RSV6", "RSV7"]) (hv : 2 ^ 32 ≤ v) :
    wrAct n reg (.num v) = .error (.valueTooWide n v) := by
  obtain ⟨a, ha⟩ := regAddr_ok n h
  simp only [wrAct, ha, valueWord_wide n hv]

/-- An argument line of an expansion with a value of 32 bits (R54). -/
theorem wrAct_arg (n : Nat) {v : Nat} (hv : v < 2 ^ 32) :
    wrAct n "ARG0" (.num v) = .ok (.transaction (0xA#4 ++ BitVec.ofNat 32 v)) ∧
    wrAct n "ARG1" (.num v) = .ok (.transaction (0xB#4 ++ BitVec.ofNat 32 v)) ∧
    wrAct n "ARG2" (.num v) = .ok (.transaction (0xC#4 ++ BitVec.ofNat 32 v)) :=
  ⟨wrAct_ok (a := 2) rfl (by decide) (valueWord_num n hv), wrAct_ok (a := 3) rfl (by decide) (valueWord_num n hv),
    wrAct_ok (a := 4) rfl (by decide) (valueWord_num n hv)⟩

/-- The lines of a POWMOD's expansion, each as what it is for the host (R54). -/
theorem transcribe_powmod (n : Nat) (b e m : HostValue) :
    transcribe n [.powmod b e m] = allOrRefusal [wrAct n "ARG0" b, wrAct n "ARG1" e, wrAct n "ARG2" m,
      wrAct n "CMD" (.mnemonic "POWMOD"), .ok (.label (.fresh n)), rdAct n "STATUS",
      .ok (.br (.bitSet 0) (.fresh n)), rdAct n "RESULT"] :=
  transcribe_line n _

/-- The first refusal of a list is the whole list's (R56; log 22). -/
theorem allOrRefusal_error {α : Type} (r : HostRefusal) (rest : List (Except HostRefusal α)) :
    allOrRefusal (.error r :: rest) = .error r := rfl

theorem allOrRefusal_ok_error {α : Type} (a : α) {r : HostRefusal} {rest : List (Except HostRefusal α)}
    (h : allOrRefusal rest = .error r) : allOrRefusal (.ok a :: rest) = .error r := by
  simp only [allOrRefusal, h]

/-- Settles O58: the expansion line by line; the first operand that is too wide ends it. -/
theorem pseudoPowmodExpandsToItsTransactions : Obligations.PseudoPowmodExpandsToItsTransactions := by
  constructor
  · intro n b e m hb he hm
    obtain ⟨harg0, -, -⟩ := wrAct_arg n hb
    obtain ⟨-, harg1, -⟩ := wrAct_arg n he
    obtain ⟨-, -, harg2⟩ := wrAct_arg n hm
    rw [transcribe_powmod, harg0, harg1, harg2]
    rfl
  · intro n v hv
    have hwide0 : wrAct n "ARG0" (.num v) = .error (.valueTooWide n v) := wrAct_wide (by simp) hv
    have hwide1 : wrAct n "ARG1" (.num v) = .error (.valueTooWide n v) := wrAct_wide (by simp) hv
    have hwide2 : wrAct n "ARG2" (.num v) = .error (.valueTooWide n v) := wrAct_wide (by simp) hv
    refine ⟨fun reg hreg => ?_, ?_, fun e m => ?_, fun b m hb => ?_, fun b e hb he => ?_⟩
    · exact (transcribe_line n _).trans (congrArg (fun r => allOrRefusal [r]) (wrAct_wide hreg hv))
    · exact (transcribe_line n _).trans (congrArg (fun r => allOrRefusal (r :: _)) hwide0)
    · rw [transcribe_powmod, hwide0, allOrRefusal_error]
    · obtain ⟨harg0, -, -⟩ := wrAct_arg n hb
      rw [transcribe_powmod, harg0, hwide1]
      exact allOrRefusal_ok_error _ (allOrRefusal_error _ _)
    · obtain ⟨harg0, -, -⟩ := wrAct_arg n hb
      obtain ⟨-, harg1, -⟩ := wrAct_arg n he
      rw [transcribe_powmod, harg0, harg1, hwide2]
      exact allOrRefusal_ok_error _ (allOrRefusal_ok_error _ (allOrRefusal_error _ _))

end Sys2Proof.Machine
end

section
/-! PROOFS. Floating-point arithmetic (R11, G1; log 12): the operators round the exact result once, and what is
representable is exact. -/

namespace Sys2Proof.Machine

/-! ### Values -/

/-- The sign of a product or quotient. -/
theorem sign_bne (n n' : Bool) :
    (if (n != n') = true then (-1 : ℚ) else 1) = (if n then -1 else 1) * (if n' then -1 else 1) := by
  cases n <;> cases n' <;> norm_num

theorem sign_inv (n : Bool) : (if n then (-1 : ℚ) else 1)⁻¹ = if n then -1 else 1 := by
  cases n <;> norm_num

/-- A sign does not show in the absolute value. -/
theorem abs_sign_mul (n : Bool) {x : ℚ} (hx : 0 ≤ x) : |(if n then (-1 : ℚ) else 1) * x| = x := by
  cases n <;> simp [abs_of_nonneg hx]

/-- A sign and a magnitude, as a rational number. -/
theorem signed_cast (n : Bool) (k : ℕ) : ((signed n k : ℤ) : ℚ) = (if n then -1 else 1) * k := by
  cases n <;> simp [signed]

/-- A negative integer's sign and magnitude make it up. -/
theorem sign_mul_natAbs (z : ℤ) : (if decide (z < 0) = true then (-1 : ℚ) else 1) * z.natAbs = z := by
  rcases lt_or_ge z 0 with h | h
  · simp [h, Nat.cast_natAbs, abs_of_neg h]
  · simp [not_lt.mpr h, Nat.cast_natAbs, abs_of_nonneg h]

/-- A significand at a smaller exponent. -/
theorem mul_two_pow_sub {e q : ℤ} (h : q ≤ e) (m : ℕ) : ((m * 2 ^ (e - q).toNat : ℕ) : ℚ) * 2 ^ q = m * 2 ^ e := by
  have hpow : (2 : ℚ) ^ (e - q).toNat = 2 ^ (e - q) := by
    rw [← zpow_natCast, Int.toNat_of_nonneg (by omega)]
  push_cast
  rw [hpow, mul_assoc, ← zpow_add₀ (by norm_num), sub_add_cancel]

@[simp] theorem Fp.val_negate (a : Fp) : Fp.val (Fp.negate a) = -Fp.val a := by
  cases a with
  | nan | inf => simp [Fp.negate, Fp.val]
  | fin n m e => cases n <;> simp [Fp.negate, Fp.val]

@[simp] theorem Fp.finite_negate (a : Fp) : Fp.finite (Fp.negate a) = Fp.finite a := by
  cases a <;> rfl

/-! ### The four operators -/

/-- Zero rounds to a zero of either sign. -/
theorem roundsTo_zero (neg : Bool) : RoundsTo 0 (.fin neg 0 Config.fp.qmin) := by
  have h := roundRat_roundsTo neg 0 1 one_pos (by norm_num [fpMax])
  simpa [roundRat] using h

/-- A scaled quotient, of either sign and within the largest finite number, is rounded to nearest. -/
theorem roundScaled_roundsTo_of_eq {x : ℚ} {neg : Bool} {num den : ℕ} {e : ℤ} (hd : 0 < den)
    (hx : x = (if neg then -1 else 1) * ((num : ℚ) / den * 2 ^ e)) (hmax : |x| ≤ fpMax) :
    RoundsTo x (roundScaled Config.fp neg num den e) := by
  rw [hx, abs_sign_mul neg (by positivity)] at hmax
  rw [hx]
  exact roundScaled_roundsTo neg num den e hd hmax

theorem fadd_roundsTo {a b : Fp} (ha : Fp.finite a = true) (hb : Fp.finite b = true)
    (hmax : |Fp.val a + Fp.val b| ≤ fpMax) : RoundsTo (Fp.val a + Fp.val b) (fpOps.fadd a b) := by
  cases a with
  | nan | inf => cases ha
  | fin n m e =>
  cases b with
  | nan | inf => cases hb
  | fin n' m' e' =>
    have hsum : Fp.val (.fin n m e) + Fp.val (.fin n' m' e') =
        ((signed n (m * 2 ^ (e - min e e').toNat) + signed n' (m' * 2 ^ (e' - min e e').toNat) : ℤ) : ℚ) *
          2 ^ min e e' := by
      rw [Int.cast_add, signed_cast, signed_cast, add_mul, mul_assoc, mul_assoc, mul_two_pow_sub (min_le_left e e'),
        mul_two_pow_sub (min_le_right e e'), val_fin, val_fin]
    simp only [fpOps, ieeeOps, ieeeAdd]
    split
    case isTrue h0 =>
      rw [hsum, h0, Int.cast_zero, zero_mul]
      exact roundsTo_zero _
    case isFalse =>
      exact roundScaled_roundsTo_of_eq one_pos (by rw [hsum, Nat.cast_one, div_one, ← mul_assoc, sign_mul_natAbs]) hmax

theorem fsub_roundsTo {a b : Fp} (ha : Fp.finite a = true) (hb : Fp.finite b = true)
    (hmax : |Fp.val a - Fp.val b| ≤ fpMax) : RoundsTo (Fp.val a - Fp.val b) (fpOps.fsub a b) := by
  rw [sub_eq_add_neg, ← Fp.val_negate] at hmax ⊢
  exact fadd_roundsTo ha ((Fp.finite_negate b).trans hb) hmax

theorem fmul_roundsTo {a b : Fp} (ha : Fp.finite a = true) (hb : Fp.finite b = true)
    (hmax : |Fp.val a * Fp.val b| ≤ fpMax) : RoundsTo (Fp.val a * Fp.val b) (fpOps.fmul a b) := by
  cases a with
  | nan | inf => cases ha
  | fin n m e =>
  cases b with
  | nan | inf => cases hb
  | fin n' m' e' =>
    refine roundScaled_roundsTo_of_eq one_pos ?_ hmax
    rw [val_fin, val_fin, sign_bne, zpow_add₀ (by norm_num)]
    push_cast
    ring

theorem fdiv_roundsTo {a b : Fp} (ha : Fp.finite a = true) (hb : Fp.finite b = true) (h0 : Fp.val b ≠ 0)
    (hmax : |Fp.val a / Fp.val b| ≤ fpMax) : RoundsTo (Fp.val a / Fp.val b) (fpOps.fdiv a b) := by
  cases a with
  | nan | inf => cases ha
  | fin n m e =>
  cases b with
  | nan | inf => cases hb
  | fin n' m' e' =>
    have hm' : m' ≠ 0 := by
      rintro rfl
      simp [val_fin] at h0
    simp only [fpOps, ieeeOps, ieeeDiv, if_neg hm']
    refine roundScaled_roundsTo_of_eq (Nat.pos_of_ne_zero hm') ?_ hmax
    rw [val_fin, val_fin, sign_bne, zpow_sub₀ (by norm_num), div_eq_mul_inv, mul_inv, sign_inv]
    ring

/-- Settles O36, operator by operator. -/
theorem arithmeticRoundsToNearestEven : Obligations.ArithmeticRoundsToNearestEven :=
  fun _ _ ha hb => ⟨fadd_roundsTo ha hb, fsub_roundsTo ha hb, fmul_roundsTo ha hb, fdiv_roundsTo ha hb⟩

/-! ### Conversions and the floor -/

/-- Every number of the digit's computation is far within the largest finite number. -/
theorem le_fpMax {x : ℚ} (h : x ≤ 2 ^ 53) : x ≤ fpMax := by
  have hpow : (2 : ℚ) ≤ 2 ^ (971 : ℤ) := by
    simpa using zpow_le_zpow_right₀ (one_le_two : (1 : ℚ) ≤ 2) (by norm_num : (1 : ℤ) ≤ 971)
  calc x ≤ 2 ^ 53 := h
    _ ≤ (2 ^ 53 - 1) * 2 := by norm_num
    _ ≤ (2 ^ 53 - 1) * 2 ^ (971 : ℤ) := mul_le_mul_of_nonneg_left hpow (by norm_num)

/-- A natural number of at most 53 bits, of either sign, rounds to itself. -/
theorem roundRat_nat_exact (neg : Bool) {k : ℕ} (hk : k < 2 ^ 53) :
    Fp.finite (roundRat Config.fp neg k 1) = true ∧
      Fp.val (roundRat Config.fp neg k 1) = (if neg then -1 else 1) * k := by
  have hle : (k : ℚ) ≤ 2 ^ 53 := by exact_mod_cast hk.le
  have hround := roundRat_roundsTo neg k 1 one_pos (by simpa using le_fpMax hle)
  obtain ⟨c, hc, hval⟩ := exists_datum neg k 0 hk (by norm_num) (by norm_num)
  rw [Nat.cast_one, div_one] at hround
  exact ⟨hround.1, hround.val_eq hc (by simpa using hval)⟩

theorem toF_finite {i : ℕ} (hi : i < 2 ^ 53) : Fp.finite (fpOps.toF i) = true :=
  (roundRat_nat_exact false hi).1

theorem toF_val {i : ℕ} (hi : i < 2 ^ 53) : Fp.val (fpOps.toF i) = i :=
  (roundRat_nat_exact false hi).2.trans (one_mul _)

/-- The constant 1.0 of the extraction and of the tail (R92, R96). -/
theorem toF_one : Fp.finite (fpOps.toF 1) = true ∧ Fp.val (fpOps.toF 1) = 1 :=
  ⟨toF_finite (by norm_num), (toF_val (by norm_num)).trans Nat.cast_one⟩

/-- A magnitude as the quotient of naturals that the conversions form. -/
theorem magnitude_eq_div (m : ℕ) (e : ℤ) :
    (m : ℚ) * 2 ^ e = ((m * 2 ^ e.toNat : ℕ) : ℚ) / ((2 ^ (-e).toNat : ℕ) : ℚ) := by
  have h := scale_eq m 1 (-e)
  rw [neg_neg, one_mul, Nat.cast_one, div_one] at h
  exact h.symm

/-- A quotient of naturals rounded up is its ceiling. -/
theorem ceil_div_eq (m u : ℕ) (hu : 0 < u) : ⌈(m : ℚ) / u⌉ = ((m + (u - 1)) / u : ℕ) := by
  have huq : (0 : ℚ) < u := by exact_mod_cast hu
  have hlow : (m + (u - 1)) / u * u < m + u := by
    have := Nat.div_mul_le_self (m + (u - 1)) u
    omega
  have hhigh : m ≤ (m + (u - 1)) / u * u := by
    have := Nat.lt_div_mul_add (a := m + (u - 1)) hu
    omega
  have hlowq : (((m + (u - 1)) / u : ℕ) : ℚ) * u < m + u := by exact_mod_cast hlow
  have hhighq : (m : ℚ) ≤ (((m + (u - 1)) / u : ℕ) : ℚ) * u := by exact_mod_cast hhigh
  rw [Int.ceil_eq_iff, Int.cast_natCast, lt_div_iff₀ huq, div_le_iff₀ huq]
  exact ⟨by linarith, hhighq⟩

/-- The floor of a datum with a fraction: of its magnitude, or the ceiling of it when negative. -/
theorem floor_sign_div (n : Bool) (m u : ℕ) (hu : 0 < u) :
    (⌊(if n then (-1 : ℚ) else 1) * (m / u)⌋ : ℚ) =
      (if n then -1 else 1) * ((if n then (m + (u - 1)) / u else m / u : ℕ) : ℚ) := by
  cases n with
  | true => simp only [if_true, neg_one_mul, Int.floor_neg, ceil_div_eq m u hu, Int.cast_neg, Int.cast_natCast]
  | false =>
    simp only [Bool.false_eq_true, if_false, one_mul, Rat.floor_natCast_div_natCast]
    norm_cast

/-- Neither way of rounding a quotient to an integer exceeds the dividend. -/
theorem rounded_quotient_le (n : Bool) (m u : ℕ) (hu : 0 < u) : (if n then (m + (u - 1)) / u else m / u) ≤ m := by
  cases n with
  | true =>
    have hm : m ≤ m * u := Nat.le_mul_of_pos_right m hu
    exact Nat.le_of_lt_succ (Nat.div_lt_of_lt_mul (by rw [Nat.mul_succ, Nat.mul_comm]; omega))
  | false => exact Nat.div_le_self m u

/-- The floor of a finite datum is exact: an integer of no more bits than its significand. -/
theorem ffloor_exact {a : Fp} (ha : Fp.finite a = true) :
    Fp.finite (fpOps.ffloor a) = true ∧ Fp.val (fpOps.ffloor a) = ⌊Fp.val a⌋ := by
  cases a with
  | nan | inf => cases ha
  | fin n m e =>
    obtain ⟨hm, -⟩ := (finite_fin n m e).mp ha
    have hval : Fp.val (.fin n m e) =
        (if n then -1 else 1) * (((m * 2 ^ e.toNat : ℕ) : ℚ) / ((2 ^ (-e).toNat : ℕ) : ℚ)) := by
      rw [val_fin, magnitude_eq_div]
    simp only [fpOps, ieeeOps, ieeeFloor]
    split
    case isTrue he =>
      have hunit : (-e).toNat = 0 := by omega
      rw [hunit, pow_zero, Nat.cast_one, div_one, ← signed_cast] at hval
      exact ⟨ha, by rw [hval, Int.floor_intCast]⟩
    case isFalse he =>
      have hunit : 0 < 2 ^ (-e).toNat := by positivity
      have he0 : e.toNat = 0 := by omega
      rw [he0, pow_zero, mul_one] at hval
      rw [hval, floor_sign_div n m _ hunit]
      exact roundRat_nat_exact n ((rounded_quotient_le n m _ hunit).trans_lt hm)

/-- A finite datum that is an integer in [0, 15] converts to it. -/
theorem toInt_exact {a : Fp} {i : ℕ} (ha : Fp.finite a = true) (hi : i ≤ 15) (hval : Fp.val a = i) :
    (fpOps.toInt a).toNat = i := by
  cases a with
  | nan | inf => cases ha
  | fin n m e =>
    have hunit : 0 < 2 ^ (-e).toNat := by positivity
    have hmag : (0 : ℚ) ≤ m * 2 ^ e := by positivity
    rw [val_fin] at hval
    have hsign : n = false ∨ m = 0 := by
      cases n with
      | false => exact .inl rfl
      | true =>
        have hi0 : (0 : ℚ) ≤ i := Nat.cast_nonneg i
        rw [if_pos rfl, neg_one_mul] at hval
        have hzero : (m : ℚ) * 2 ^ e = 0 := by linarith
        exact .inr (by exact_mod_cast (mul_eq_zero.mp hzero).resolve_right (by positivity))
    have hquot : ((m * 2 ^ e.toNat : ℕ) : ℚ) / ((2 ^ (-e).toNat : ℕ) : ℚ) = i := by
      rw [← magnitude_eq_div, ← hval]
      rcases hsign with rfl | rfl <;> simp
    have hnum : m * 2 ^ e.toNat = i * 2 ^ (-e).toNat := by
      rw [div_eq_iff (by positivity)] at hquot
      exact_mod_cast hquot
    have hdiv : m * 2 ^ e.toNat / 2 ^ (-e).toNat = i := by rw [hnum, Nat.mul_div_cancel _ hunit]
    have hmod : m * 2 ^ e.toNat % 2 ^ (-e).toNat = 0 := by rw [hnum, Nat.mul_mod_left]
    simp only [fpOps, ieeeOps, ieeeToInt, hdiv, hmod]
    rw [if_pos ⟨hsign, trivial, hi⟩, BitVec.toNat_ofNat]
    omega

/-- Settles O37, conversion by conversion. -/
theorem conversionsAndFloorAreExact : Obligations.ConversionsAndFloorAreExact :=
  ⟨fun _ hi => ⟨toF_finite hi, toF_val hi⟩, fun _ ha => ffloor_exact ha, fun _ _ ha hi hval => toInt_exact ha hi hval⟩

end Sys2Proof.Machine
end

section
/-! PROOFS. BBPX (43_bbp.md): the ranges of the series values (R92, R94), the extraction of the digit (R96), and the
digit of the units as that of the formulas (R97). -/

namespace Sys2Proof.Machine

/-! ### What rounding keeps -/

/-- What is at most a natural number of 53 bits rounds to at most it. -/
theorem RoundsTo.le_natCast {x : ℚ} {r : Fp} {n : ℕ} (h : RoundsTo x r) (hn : n < 2 ^ 53) (hx : x ≤ n) :
    Fp.val r ≤ n := by
  rw [← toF_val hn] at hx ⊢
  exact h.val_le (toF_finite hn) hx

/-- What is at least a natural number of 53 bits rounds to at least it. -/
theorem RoundsTo.natCast_le {x : ℚ} {r : Fp} {n : ℕ} (h : RoundsTo x r) (hn : n < 2 ^ 53) (hx : n ≤ x) :
    n ≤ Fp.val r := by
  rw [← toF_val hn] at hx ⊢
  exact h.le_val (toF_finite hn) hx

/-- A natural number of 53 bits at any exponent of the format rounds to itself. -/
theorem RoundsTo.val_eq_scaled {k : ℕ} {e : ℤ} {r : Fp} (h : RoundsTo (k * 2 ^ e) r) (hk : k < 2 ^ 53) (he : -1074 ≤ e)
    (he' : e ≤ 971) : Fp.val r = k * 2 ^ e := by
  obtain ⟨c, hc, hval⟩ := exists_datum false k e hk he he'
  exact h.val_eq hc (hval.trans (one_mul _))

/-- A number of magnitude at most `n` rounds to one. -/
theorem RoundsTo.abs_val_le {x : ℚ} {r : Fp} {n : ℕ} (h : RoundsTo x r) (hn : n < 2 ^ 53) (hx : |x| ≤ n) :
    |Fp.val r| ≤ n := by
  obtain ⟨hlow, hhigh⟩ := abs_le.mp hx
  obtain ⟨c, hc, hval⟩ := exists_datum true n 0 hn (by norm_num) (by norm_num)
  have hcval : Fp.val c = -n := by simpa using hval
  exact abs_le.mpr ⟨hcval ▸ h.le_val hc (hcval ▸ hlow), h.le_natCast hn hhigh⟩

/-- A magnitude of at most 53 bits is within the largest finite number. -/
theorem abs_le_fpMax {x : ℚ} {n : ℕ} (hn : n < 2 ^ 53) (hx : |x| ≤ n) : |x| ≤ fpMax :=
  le_fpMax (hx.trans (by exact_mod_cast hn.le))

/-! ### Magnitudes through the operators -/

/-- A finite datum of magnitude at most `n`. -/
structure Fp.AbsLe (r : Fp) (n : ℕ) : Prop where
  finite : Fp.finite r = true
  abs_le : |Fp.val r| ≤ n

theorem toF_absLe {n : ℕ} (hn : n < 2 ^ 53) : Fp.AbsLe (fpOps.toF n) n :=
  ⟨toF_finite hn, by rw [toF_val hn, Nat.abs_cast]⟩

theorem Fp.AbsLe.fadd {a b : Fp} {m n : ℕ} (ha : Fp.AbsLe a m) (hb : Fp.AbsLe b n) (h : m + n < 2 ^ 53) :
    Fp.AbsLe (fpOps.fadd a b) (m + n) := by
  have hle : |Fp.val a + Fp.val b| ≤ (m + n : ℕ) := by
    push_cast
    exact (abs_add_le _ _).trans (add_le_add ha.abs_le hb.abs_le)
  have hround := fadd_roundsTo ha.finite hb.finite (abs_le_fpMax h hle)
  exact ⟨hround.1, hround.abs_val_le h hle⟩

theorem Fp.AbsLe.fsub {a b : Fp} {m n : ℕ} (ha : Fp.AbsLe a m) (hb : Fp.AbsLe b n) (h : m + n < 2 ^ 53) :
    Fp.AbsLe (fpOps.fsub a b) (m + n) := by
  have hle : |Fp.val a - Fp.val b| ≤ (m + n : ℕ) := by
    push_cast
    exact (abs_sub _ _).trans (add_le_add ha.abs_le hb.abs_le)
  have hround := fsub_roundsTo ha.finite hb.finite (abs_le_fpMax h hle)
  exact ⟨hround.1, hround.abs_val_le h hle⟩

theorem Fp.AbsLe.fmul {a b : Fp} {m n : ℕ} (ha : Fp.AbsLe a m) (hb : Fp.AbsLe b n) (h : m * n < 2 ^ 53) :
    Fp.AbsLe (fpOps.fmul a b) (m * n) := by
  have hle : |Fp.val a * Fp.val b| ≤ (m * n : ℕ) := by
    push_cast
    rw [abs_mul]
    exact mul_le_mul ha.abs_le hb.abs_le (abs_nonneg _) (Nat.cast_nonneg m)
  have hround := fmul_roundsTo ha.finite hb.finite (abs_le_fpMax h hle)
  exact ⟨hround.1, hround.abs_val_le h hle⟩

/-- The product of two natural numbers is exact while it has at most 53 bits. -/
theorem fmul_toF_exact {m n : ℕ} (hm : m < 2 ^ 53) (hn : n < 2 ^ 53) (h : m * n < 2 ^ 53) :
    Fp.finite (fpOps.fmul (fpOps.toF m) (fpOps.toF n)) = true ∧
      Fp.val (fpOps.fmul (fpOps.toF m) (fpOps.toF n)) = (m * n : ℕ) := by
  have hround := fmul_roundsTo (toF_finite hm) (toF_finite hn)
    (abs_le_fpMax h (by rw [toF_val hm, toF_val hn, ← Nat.cast_mul, Nat.abs_cast]))
  rw [toF_val hm, toF_val hn, ← Nat.cast_mul] at hround
  exact ⟨hround.1, le_antisymm (hround.le_natCast h le_rfl) (hround.natCast_le h le_rfl)⟩

/-- The quotient of two natural numbers is rounded once. -/
theorem fdiv_toF_roundsTo {r d : ℕ} (hr : r < 2 ^ 53) (hd : d < 2 ^ 53) (h0 : 0 < d) :
    RoundsTo ((r : ℚ) / d) (fpOps.fdiv (fpOps.toF r) (fpOps.toF d)) := by
  have hd0 : (d : ℚ) ≠ 0 := by exact_mod_cast h0.ne'
  have hle : |(r : ℚ) / d| ≤ r := by
    rw [abs_of_nonneg (by positivity)]
    exact div_le_self (Nat.cast_nonneg r) (by exact_mod_cast h0)
  have hround := fdiv_roundsTo (toF_finite hr) (toF_finite hd) (by rwa [toF_val hd])
    (abs_le_fpMax hr (by rwa [toF_val hr, toF_val hd]))
  rwa [toF_val hr, toF_val hd] at hround

/-! ### The extraction -/

/-- What a datum has above its floor is rounded once, in both steps of the extraction (R96). -/
theorem fsub_ffloor_roundsTo {a : Fp} (ha : Fp.finite a = true) :
    RoundsTo (Int.fract (Fp.val a)) (fpOps.fsub a (fpOps.ffloor a)) := by
  obtain ⟨hfloor, hfloorval⟩ := ffloor_exact ha
  have hle : |Int.fract (Fp.val a)| ≤ (1 : ℕ) := by
    rw [abs_of_nonneg (Int.fract_nonneg _)]
    exact_mod_cast (Int.fract_lt_one _).le
  have hround := fsub_roundsTo ha hfloor
  rw [hfloorval, Int.self_sub_floor] at hround
  exact hround (abs_le_fpMax (by norm_num) hle)

/-- `x` is 1 plus what is left of `raw` above its floor, each rounded (R96). -/
theorem extractX_mem {raw : Fp} (hraw : Fp.finite raw = true) :
    Fp.finite (extractX fpOps raw) = true ∧ 1 ≤ Fp.val (extractX fpOps raw) ∧ Fp.val (extractX fpOps raw) ≤ 2 := by
  obtain ⟨hone, honeval⟩ := toF_one
  have hdiff := fsub_ffloor_roundsTo hraw
  have hlow := hdiff.natCast_le (n := 0) (by norm_num) (by exact_mod_cast Int.fract_nonneg _)
  have hhigh := hdiff.le_natCast (n := 1) (by norm_num) (by exact_mod_cast (Int.fract_lt_one _).le)
  push_cast at hlow hhigh
  have hround : RoundsTo (Fp.val (fpOps.fsub raw (fpOps.ffloor raw)) + 1) (extractX fpOps raw) := by
    have h := fadd_roundsTo hdiff.1 hone
    rw [honeval] at h
    exact h (abs_le_fpMax (n := 2) (by norm_num) (by rw [abs_of_nonneg (by linarith)]; push_cast; linarith))
  have hxlow := hround.natCast_le (n := 1) (by norm_num) (by push_cast; linarith)
  have hxhigh := hround.le_natCast (n := 2) (by norm_num) (by push_cast; linarith)
  exact ⟨hround.1, by exact_mod_cast hxlow, by exact_mod_cast hxhigh⟩

/-- A datum of at least 1 is a multiple of 2^-52. -/
theorem exists_eq_div_of_one_le {x : Fp} (hx : Fp.finite x = true) (h1 : 1 ≤ Fp.val x) :
    ∃ k : ℕ, Fp.val x = k / (2 ^ 52 : ℕ) := by
  cases x with
  | nan | inf => cases hx
  | fin n m e =>
    obtain ⟨hm, -, -, -⟩ := (finite_fin n m e).mp hx
    have hmag : (0 : ℚ) ≤ m * 2 ^ e := by positivity
    rw [val_fin] at h1 ⊢
    cases n with
    | true =>
      rw [if_pos rfl] at h1
      linarith
    | false =>
      have he : -52 ≤ e := by
        by_contra hlt
        have hmq : (m : ℚ) < 2 ^ 53 := by exact_mod_cast hm
        have hpow : (2 : ℚ) ^ e ≤ 2 ^ (-53 : ℤ) := zpow_le_zpow_right₀ (by norm_num) (by omega)
        have hlt1 : (m : ℚ) * 2 ^ e < 1 := by
          calc (m : ℚ) * 2 ^ e ≤ m * 2 ^ (-53 : ℤ) := mul_le_mul_of_nonneg_left hpow (Nat.cast_nonneg m)
            _ < 2 ^ 53 * 2 ^ (-53 : ℤ) := mul_lt_mul_of_pos_right hmq (by positivity)
            _ = 1 := by norm_num
        rw [if_neg Bool.false_ne_true, one_mul] at h1
        linarith
      refine ⟨m * 2 ^ (e - -52).toNat, ?_⟩
      rw [if_neg Bool.false_ne_true, one_mul, ← mul_two_pow_sub he m, zpow_neg, div_eq_mul_inv]
      norm_num

/-- `y` is exactly the fraction of `x`, and a multiple of 2^-52 (R96). -/
theorem extractY_eq_fract {x : Fp} (hx : Fp.finite x = true) (h1 : 1 ≤ Fp.val x) :
    Fp.finite (extractY fpOps x) = true ∧ Fp.val (extractY fpOps x) = Int.fract (Fp.val x) ∧
      ∃ j : ℕ, j < 2 ^ 52 ∧ Fp.val (extractY fpOps x) = j * 2 ^ (-52 : ℤ) := by
  obtain ⟨k, hk⟩ := exists_eq_div_of_one_le hx h1
  have hj : k % 2 ^ 52 < 2 ^ 52 := Nat.mod_lt _ (by norm_num)
  have hfract : Int.fract (Fp.val x) = (k % 2 ^ 52 : ℕ) * 2 ^ (-52 : ℤ) := by
    rw [hk, Int.fract_div_natCast_eq_div_natCast_mod, zpow_neg, div_eq_mul_inv]
    norm_num
  have hround : RoundsTo (Int.fract (Fp.val x)) (extractY fpOps x) := fsub_ffloor_roundsTo hx
  have hval : Fp.val (extractY fpOps x) = (k % 2 ^ 52 : ℕ) * 2 ^ (-52 : ℤ) := by
    rw [hfract] at hround
    exact hround.val_eq_scaled (hj.trans (by norm_num)) (by norm_num) (by norm_num)
  exact ⟨hround.1, hval.trans hfract.symm, _, hj, hval⟩

/-- `16·y` is exact: it moves the exponent alone (R96). -/
theorem fmul_sixteen_exact {y : Fp} {j : ℕ} (hy : Fp.finite y = true) (hj : j < 2 ^ 52)
    (hval : Fp.val y = j * 2 ^ (-52 : ℤ)) :
    Fp.finite (fpOps.fmul (fpOps.toF 16) y) = true ∧ Fp.val (fpOps.fmul (fpOps.toF 16) y) = 16 * Fp.val y := by
  have hsixteen : Fp.val (fpOps.toF 16) = 16 := by exact_mod_cast toF_val (i := 16) (by norm_num)
  have hscaled : 16 * Fp.val y = j * 2 ^ (-48 : ℤ) := by
    rw [hval, show (-48 : ℤ) = 4 + -52 by norm_num, zpow_add₀ (by norm_num)]
    norm_num
    ring
  have hyle : |Fp.val y| ≤ (1 : ℕ) := by
    have hjq : (j : ℚ) < 2 ^ 52 := by exact_mod_cast hj
    rw [hval, abs_of_nonneg (by positivity), zpow_neg, ← div_eq_mul_inv, div_le_iff₀ (by positivity)]
    norm_num
    linarith
  have hround := fmul_roundsTo (toF_finite (i := 16) (by norm_num)) hy (by
    refine abs_le_fpMax (n := 16) (by norm_num) ?_
    rw [hsixteen, abs_mul]
    push_cast at hyle ⊢
    norm_num
    linarith)
  rw [hsixteen, hscaled] at hround
  rw [hscaled]
  exact ⟨hround.1, hround.val_eq_scaled (hj.trans (by norm_num)) (by norm_num) (by norm_num)⟩

/-- The floor of a finite datum in [0, 16) converts to it exactly (R96). -/
theorem toInt_ffloor_exact {a : Fp} (ha : Fp.finite a = true) (h0 : 0 ≤ Fp.val a) (h16 : Fp.val a < 16) :
    ((fpOps.toInt (fpOps.ffloor a)).toNat : ℤ) = ⌊Fp.val a⌋ := by
  obtain ⟨hfloor, hfloorval⟩ := ffloor_exact ha
  obtain ⟨i, hi⟩ := Int.eq_ofNat_of_zero_le (Int.floor_nonneg.mpr h0)
  have hlt : ⌊Fp.val a⌋ < 16 := Int.floor_lt.mpr (by exact_mod_cast h16)
  rw [hi] at hlt hfloorval ⊢
  exact congrArg Nat.cast (toInt_exact hfloor (by omega) (by exact_mod_cast hfloorval))

/-- Settles O40: `x` is in [1, 2], so its fraction and 16 times it are exact, and the digit is in [0, 15]. -/
theorem extractionYieldsAHexDigit : Obligations.ExtractionYieldsAHexDigit := by
  intro raw hraw
  obtain ⟨hx, hx1, hx2⟩ := extractX_mem hraw
  obtain ⟨hy, hfract, j, hj, hyval⟩ := extractY_eq_fract hx hx1
  obtain ⟨hmul, hmulval⟩ := fmul_sixteen_exact hy hj hyval
  have hy0 : 0 ≤ Fp.val (extractY fpOps (extractX fpOps raw)) := hfract ▸ Int.fract_nonneg _
  have hy1 : Fp.val (extractY fpOps (extractX fpOps raw)) < 1 := hfract ▸ Int.fract_lt_one _
  have hdigit := toInt_ffloor_exact hmul (by rw [hmulval]; linarith) (by rw [hmulval]; linarith)
  rw [hmulval] at hdigit
  exact ⟨hx, hx1, hx2, hy, hy0, hy1, hfract, hmulval, hdigit⟩

end Sys2Proof.Machine
end

section
/-! PROOFS. The series of BBPX (43_bbp.md sections 1 and 2): the tail's denominators (R92), the ranges of the sums (R94),
the digit of the units as that of the formulas (R97), and HEXDIGIT from issue to completion (R100). -/

namespace Sys2Proof.Machine

/-! ### Sums of terms -/

/-- The sum of the first `n` terms, rounded after each (R91, R92). -/
def sumOf (f : ℕ → Fp) : ℕ → Fp
  | 0 => fpOps.toF 0
  | n + 1 => fpOps.fadd (sumOf f n) (f n)

theorem foldl_range_eq_sumOf (f : ℕ → Fp) (n : ℕ) :
    (List.range n).foldl (fun acc k => fpOps.fadd acc (f k)) (fpOps.toF 0) = sumOf f n := by
  induction n with
  | zero => rfl
  | succ n ih => rw [List.range_succ, List.foldl_append, ih]; rfl

/-- `b` is a number of `FP`, small enough for sums of it to be within the largest finite number. -/
def IsBound (b : ℚ) : Prop := b ≤ 2 ^ 53 ∧ ∃ c, Fp.finite c = true ∧ Fp.val c = b

/-- A sum rounds to at most a representable bound on it, if neither operand is negative. -/
theorem fadd_mem {a b : Fp} {bound : ℚ} (ha : Fp.finite a = true) (hb : Fp.finite b = true) (ha0 : 0 ≤ Fp.val a)
    (hb0 : 0 ≤ Fp.val b) (hbound : IsBound bound) (h : Fp.val a + Fp.val b ≤ bound) :
    RoundsTo (Fp.val a + Fp.val b) (fpOps.fadd a b) ∧ 0 ≤ Fp.val (fpOps.fadd a b) ∧
      Fp.val (fpOps.fadd a b) ≤ bound := by
  obtain ⟨hle, c, hc, rfl⟩ := hbound
  have hround := fadd_roundsTo ha hb (by rw [abs_of_nonneg (by linarith)]; exact le_fpMax (h.trans hle))
  refine ⟨hround, ?_, hround.val_le hc h⟩
  exact_mod_cast hround.natCast_le (n := 0) (by norm_num) (by push_cast; linarith)

/-- The sums stay within representable bounds that leave room for each term. -/
theorem sumOf_mem {f : ℕ → Fp} {bound : ℕ → ℚ} {n : ℕ} (h0 : 0 ≤ bound 0) (hbound : ∀ k ≤ n, IsBound (bound k))
    (hf : ∀ k < n, Fp.finite (f k) = true ∧ 0 ≤ Fp.val (f k) ∧ bound k + Fp.val (f k) ≤ bound (k + 1)) :
    Fp.finite (sumOf f n) = true ∧ 0 ≤ Fp.val (sumOf f n) ∧ Fp.val (sumOf f n) ≤ bound n := by
  induction n with
  | zero =>
    have hzero : Fp.val (fpOps.toF 0) = 0 := by exact_mod_cast toF_val (i := 0) (by norm_num)
    exact ⟨toF_finite (by norm_num), hzero.ge, hzero.trans_le h0⟩
  | succ n ih =>
    obtain ⟨hfin, hpos, hle⟩ := ih (fun k hk => hbound k (by omega)) (fun k hk => hf k (by omega))
    obtain ⟨hfn, hfn0, hroom⟩ := hf n (Nat.lt_succ_self n)
    obtain ⟨hround, hmem⟩ := fadd_mem hfin hfn hpos hfn0 (hbound (n + 1) le_rfl) (by linarith)
    exact ⟨hround.1, hmem⟩

/-! ### The finite part -/

/-- A term of the finite part (R91). -/
def finiteTermFormula (c m k : ℕ) : Fp :=
  fpOps.fdiv (fpOps.toF (16 ^ (m - 1 - k) % (8 * k + c))) (fpOps.toF (8 * k + c))

theorem finiteFormula_eq_sumOf (c m : ℕ) : finiteFormula c m = sumOf (finiteTermFormula c m) m :=
  foldl_range_eq_sumOf (finiteTermFormula c m) m

/-- The series constants are in [1, 6] (R7). -/
theorem seriesConst_mem {c : ℕ} (hc : c ∈ [1, 4, 5, 6]) : 1 ≤ c ∧ c ≤ 6 := by
  simp only [List.mem_cons, List.not_mem_nil, or_false] at hc
  omega

/-- A term of the finite part is a residue over its modulus: in [0, 1]. -/
theorem finiteTermFormula_mem {c k : ℕ} (m : ℕ) (hc : 1 ≤ c) (hd : 8 * k + c < 2 ^ 53) :
    Fp.finite (finiteTermFormula c m k) = true ∧ 0 ≤ Fp.val (finiteTermFormula c m k) ∧
      Fp.val (finiteTermFormula c m k) ≤ 1 := by
  have hlt : 16 ^ (m - 1 - k) % (8 * k + c) < 8 * k + c := Nat.mod_lt _ (by omega)
  have hround : RoundsTo _ (finiteTermFormula c m k) := fdiv_toF_roundsTo (hlt.trans hd) hd (by omega)
  have hle : ((16 ^ (m - 1 - k) % (8 * k + c) : ℕ) : ℚ) / (8 * k + c : ℕ) ≤ 1 :=
    div_le_one_of_le₀ (by exact_mod_cast hlt.le) (Nat.cast_nonneg _)
  have hlow := hround.natCast_le (n := 0) (by norm_num) (by push_cast; positivity)
  have hhigh := hround.le_natCast (n := 1) (by norm_num) (by exact_mod_cast hle)
  exact ⟨hround.1, by exact_mod_cast hlow, by exact_mod_cast hhigh⟩

/-- The finite part is a finite number in [0, m] (R94). -/
theorem finiteFormula_mem {c m : ℕ} (hc : c ∈ [1, 4, 5, 6]) (hm : m ≤ 0x20000000) :
    Fp.finite (finiteFormula c m) = true ∧ 0 ≤ Fp.val (finiteFormula c m) ∧ Fp.val (finiteFormula c m) ≤ m := by
  obtain ⟨hc1, hc6⟩ := seriesConst_mem hc
  rw [finiteFormula_eq_sumOf]
  refine sumOf_mem (bound := fun k => (k : ℚ)) (by simp) (fun k hk => ?_) (fun k hk => ?_)
  · have hk53 : k < 2 ^ 53 := by omega
    exact ⟨by exact_mod_cast hk53.le, fpOps.toF k, toF_finite hk53, toF_val hk53⟩
  · obtain ⟨hfin, hlow, hhigh⟩ := finiteTermFormula_mem m hc1 (by omega : 8 * k + c < 2 ^ 53)
    exact ⟨hfin, hlow, by push_cast; linarith⟩

/-! ### The tail -/

/-- The denominator of a tail term has at most 53 bits (R92). -/
theorem tail_denominator_lt {c m i : ℕ} (hc : c ≤ 6) (hm : m ≤ 0x20000000) (hi : i < 5) :
    16 ^ (i + 1) ≤ 2 ^ 20 ∧ 16 ^ (i + 1) * (8 * (m + i) + c) < 2 ^ 53 := by
  have hpow : 16 ^ (i + 1) ≤ 2 ^ 20 := by
    calc 16 ^ (i + 1) ≤ 16 ^ 5 := Nat.pow_le_pow_right (by norm_num) (by omega)
      _ = 2 ^ 20 := by norm_num
  have hd : 8 * (m + i) + c ≤ 2 ^ 32 + 38 := by omega
  refine ⟨hpow, (Nat.mul_le_mul hpow hd).trans_lt (by norm_num)⟩

/-- The denominator of a tail term is exact (R92). -/
theorem tail_denominator_exact {c m i : ℕ} (hc : c ≤ 6) (hm : m ≤ 0x20000000) (hi : i < 5) :
    Fp.finite (fpOps.fmul (fpOps.toF (16 ^ (i + 1))) (fpOps.toF (8 * (m + i) + c))) = true ∧
      Fp.val (fpOps.fmul (fpOps.toF (16 ^ (i + 1))) (fpOps.toF (8 * (m + i) + c))) =
        (16 ^ (i + 1) * (8 * (m + i) + c) : ℕ) := by
  obtain ⟨hpow, hlt⟩ := tail_denominator_lt hc hm hi
  exact fmul_toF_exact (by omega) (by omega) hlt

/-- Settles O38: the product has at most 20 + 33 bits. -/
theorem tailDenominatorsAreExact : Obligations.TailDenominatorsAreExact := by
  intro c m i hc hm hi
  obtain ⟨-, hc6⟩ := seriesConst_mem hc
  exact (tail_denominator_exact hc6 hm hi).2

/-- A term of the tail (R92). -/
def tailTermFormula (c m i : ℕ) : Fp :=
  fpOps.fdiv (fpOps.toF 1) (fpOps.fmul (fpOps.toF (16 ^ (i + 1))) (fpOps.toF (8 * (m + i) + c)))

theorem tailFormula_eq_sumOf (c m : ℕ) : tailFormula c m = sumOf (tailTermFormula c m) 5 :=
  foldl_range_eq_sumOf (tailTermFormula c m) 5

/-- A power of two of the format, as a bound. -/
theorem two_zpow_datum {e : ℤ} (he : -1074 ≤ e) (he' : e ≤ 971) : ∃ c, Fp.finite c = true ∧ Fp.val c = 2 ^ e := by
  obtain ⟨c, hc, hval⟩ := exists_datum false 1 e (by norm_num) he he'
  exact ⟨c, hc, by simpa using hval⟩

/-- The quotients of 1 by a tail term's denominator lie between two powers of two. -/
theorem one_div_tail_denominator_mem {c m i : ℕ} (hc : 1 ≤ c) (hc6 : c ≤ 6) (hm : m ≤ 0x20000000) (hi : i < 5) :
    (2 : ℚ) ^ (-53 : ℤ) ≤ 1 / (16 ^ (i + 1) * (8 * (m + i) + c) : ℕ) ∧
      1 / ((16 ^ (i + 1) * (8 * (m + i) + c) : ℕ) : ℚ) ≤ 2 ^ (-(i : ℤ) - 4) := by
  obtain ⟨-, hlt⟩ := tail_denominator_lt hc6 hm hi
  have hge : 2 ^ (i + 4) ≤ 16 ^ (i + 1) * (8 * (m + i) + c) := by
    calc 2 ^ (i + 4) ≤ 2 ^ (4 * (i + 1)) := Nat.pow_le_pow_right (by norm_num) (by omega)
      _ = 16 ^ (i + 1) := by rw [pow_mul]; norm_num
      _ ≤ 16 ^ (i + 1) * (8 * (m + i) + c) := Nat.le_mul_of_pos_right _ (by omega)
  generalize 16 ^ (i + 1) * (8 * (m + i) + c) = d at hlt hge ⊢
  have hgeq : (2 : ℚ) ^ (i + 4) ≤ d := by exact_mod_cast hge
  have hltq : (d : ℚ) ≤ 2 ^ 53 := by exact_mod_cast hlt.le
  have hexp : -(i : ℤ) - 4 = -((i + 4 : ℕ) : ℤ) := by push_cast; ring
  constructor
  · rw [zpow_neg, ← one_div]
    exact one_div_le_one_div_of_le (lt_of_lt_of_le (by positivity) hgeq) (by exact_mod_cast hltq)
  · rw [hexp, zpow_neg, zpow_natCast, ← one_div]
    exact one_div_le_one_div_of_le (by positivity) hgeq

/-- A term of the tail lies between the same powers of two (R92). -/
theorem tailTermFormula_mem {c m i : ℕ} (hc : 1 ≤ c) (hc6 : c ≤ 6) (hm : m ≤ 0x20000000) (hi : i < 5) :
    Fp.finite (tailTermFormula c m i) = true ∧ 2 ^ (-53 : ℤ) ≤ Fp.val (tailTermFormula c m i) ∧
      Fp.val (tailTermFormula c m i) ≤ 2 ^ (-(i : ℤ) - 4) := by
  obtain ⟨hfin, hval⟩ := tail_denominator_exact hc6 hm hi
  obtain ⟨hlow, hhigh⟩ := one_div_tail_denominator_mem hc hc6 hm hi
  obtain ⟨hone, honeval⟩ := toF_one
  have hsmall : (0 : ℚ) < 2 ^ (-53 : ℤ) := by positivity
  have hle1 : (2 : ℚ) ^ (-(i : ℤ) - 4) ≤ 1 := zpow_le_one_of_nonpos₀ (by norm_num) (by omega)
  have hround : RoundsTo (1 / (16 ^ (i + 1) * (8 * (m + i) + c) : ℕ)) (tailTermFormula c m i) := by
    have h := fdiv_roundsTo hone hfin
    rw [honeval, hval] at h
    refine h (fun h0 => ?_) (abs_le_fpMax (n := 1) (by norm_num) ?_)
    · rw [h0, div_zero] at hlow
      linarith
    · rw [abs_of_pos (hsmall.trans_le hlow), Nat.cast_one]
      exact hhigh.trans hle1
  obtain ⟨low, hlowfin, hlowval⟩ := two_zpow_datum (e := -53) (by norm_num) (by norm_num)
  obtain ⟨high, hhighfin, hhighval⟩ := two_zpow_datum (e := -(i : ℤ) - 4) (by omega) (by omega)
  rw [← hlowval] at hlow ⊢
  rw [← hhighval] at hhigh ⊢
  exact ⟨hround.1, hround.le_val hlowfin hlow, hround.val_le hhighfin hhigh⟩

/-- The bound on the tail's first `k` terms: 2^-4 + … + 2^-(k+3). -/
def tailBound (k : ℕ) : ℚ := (2 ^ k - 1 : ℕ) * 2 ^ (-(k : ℤ) - 3)

theorem tailBound_succ (k : ℕ) : tailBound k + 2 ^ (-(k : ℤ) - 4) = tailBound (k + 1) := by
  have hone : 1 ≤ 2 ^ k := Nat.one_le_two_pow
  have hone' : 1 ≤ 2 ^ (k + 1) := Nat.one_le_two_pow
  have hstep : (2 : ℚ) ^ (-(k : ℤ) - 3) = 2 * 2 ^ (-(k : ℤ) - 4) := by
    rw [← zpow_one_add₀ (by norm_num)]
    congr 1
    ring
  have hexp : -((k + 1 : ℕ) : ℤ) - 3 = -(k : ℤ) - 4 := by push_cast; ring
  simp only [tailBound]
  rw [hexp, hstep, Nat.cast_sub hone, Nat.cast_sub hone']
  push_cast
  ring

theorem tailBound_isBound {k : ℕ} (hk : k ≤ 5) : IsBound (tailBound k) := by
  have hlt : 2 ^ k ≤ 2 ^ 5 := Nat.pow_le_pow_right (by norm_num) hk
  obtain ⟨c, hc, hval⟩ := exists_datum false (2 ^ k - 1) (-(k : ℤ) - 3) (by omega) (by omega) (by omega)
  refine ⟨?_, c, hc, hval.trans (one_mul _)⟩
  interval_cases k <;> norm_num [tailBound]

/-- The sums of the tail's terms stay within the bounds. -/
theorem tail_sumOf_mem {c m n : ℕ} (hc : 1 ≤ c) (hc6 : c ≤ 6) (hm : m ≤ 0x20000000) (hn : n ≤ 5) :
    Fp.finite (sumOf (tailTermFormula c m) n) = true ∧ 0 ≤ Fp.val (sumOf (tailTermFormula c m) n) ∧
      Fp.val (sumOf (tailTermFormula c m) n) ≤ tailBound n := by
  refine sumOf_mem (by simp [tailBound]) (fun k hk => tailBound_isBound (hk.trans hn)) (fun k hk => ?_)
  obtain ⟨hfin, hlow, hhigh⟩ := tailTermFormula_mem hc hc6 hm (by omega : k < 5)
  have hpos : (0 : ℚ) < 2 ^ (-53 : ℤ) := by positivity
  exact ⟨hfin, hpos.le.trans hlow, by rw [← tailBound_succ]; linarith⟩

/-- The tail is a finite number in (0, 1/8): its last term alone is positive (R94). -/
theorem tailFormula_mem {c m : ℕ} (hc : c ∈ [1, 4, 5, 6]) (hm : m ≤ 0x20000000) :
    Fp.finite (tailFormula c m) = true ∧ 0 < Fp.val (tailFormula c m) ∧ Fp.val (tailFormula c m) < 1 / 8 := by
  obtain ⟨hc1, hc6⟩ := seriesConst_mem hc
  obtain ⟨hfin4, hpos4, hle4⟩ := tail_sumOf_mem (n := 4) hc1 hc6 hm (by norm_num)
  obtain ⟨hfin, -, hle⟩ := tail_sumOf_mem (n := 5) hc1 hc6 hm le_rfl
  obtain ⟨hterm, hlow, hhigh⟩ := tailTermFormula_mem hc1 hc6 hm (by norm_num : 4 < 5)
  obtain ⟨low, hlowfin, hlowval⟩ := two_zpow_datum (e := -53) (by norm_num) (by norm_num)
  have hsmall : (0 : ℚ) < 2 ^ (-53 : ℤ) := by positivity
  obtain ⟨hround, -⟩ := fadd_mem hfin4 hterm hpos4 (hsmall.le.trans hlow) (tailBound_isBound le_rfl)
    (by rw [← tailBound_succ]; exact_mod_cast add_le_add hle4 hhigh)
  have hge := hround.le_val hlowfin (by rw [hlowval]; linarith)
  rw [tailFormula_eq_sumOf]
  refine ⟨hfin, (hlowval ▸ hsmall).trans_le hge, hle.trans_lt ?_⟩
  norm_num [tailBound]

/-! ### The sums and raw -/

/-- A sum is of magnitude at most m + 1 (R94). -/
theorem seriesFormula_absLe {c m : ℕ} (hc : c ∈ [1, 4, 5, 6]) (hm : m ≤ 0x20000000) :
    Fp.AbsLe (seriesFormula c m) (0x20000000 + 1) := by
  obtain ⟨hfin, hlow, hhigh⟩ := finiteFormula_mem hc hm
  obtain ⟨htail, htail0, htail1⟩ := tailFormula_mem hc hm
  have hmq : (m : ℚ) ≤ (0x20000000 : ℕ) := by exact_mod_cast hm
  have hfinite : Fp.AbsLe (finiteFormula c m) 0x20000000 := ⟨hfin, by rw [abs_of_nonneg hlow]; linarith⟩
  have htail : Fp.AbsLe (tailFormula c m) 1 := ⟨htail, by rw [abs_of_pos htail0]; push_cast; linarith⟩
  exact hfinite.fadd htail (by norm_num)

/-- Settles O39: the terms bound the parts, the parts the sums, and the sums raw. -/
theorem seriesValuesStayInRange : Obligations.SeriesValuesStayInRange := by
  intro m hm
  have hsum (c : ℕ) (hc : c ∈ [1, 4, 5, 6]) := seriesFormula_absLe hc hm
  constructor
  · intro c hc
    obtain ⟨hfin, hlow, hhigh⟩ := finiteFormula_mem hc hm
    obtain ⟨htail, htail0, htail1⟩ := tailFormula_mem hc hm
    exact ⟨hfin, hlow, hhigh, htail, htail0, htail1, (hsum c hc).finite⟩
  · have h1 := (toF_absLe (n := 4) (by norm_num)).fmul (hsum 1 (by simp)) (by norm_num)
    have h4 := (toF_absLe (n := 2) (by norm_num)).fmul (hsum 4 (by simp)) (by norm_num)
    exact (((h1.fsub h4 (by norm_num)).fsub (hsum 5 (by simp)) (by norm_num)).fsub (hsum 6 (by simp)) (by norm_num)).finite

end Sys2Proof.Machine
end

section
/-! PROOFS. The digit: the units' registers compute the formulas of 43_bbp.md (R89 to R97), and HEXDIGIT leaves their digit
in RESULT (R100). -/

namespace Sys2Proof.Machine

/-! ### The units' sums as the formulas -/

/-- The numerator the units take from MODEXP is the mathematical residue (R91). -/
theorem modExp_sixteen {c m k : ℕ} (hc : 1 ≤ c) (hc6 : c ≤ 6) (hm : m ≤ 0x20000000) (hk : k < m) :
    (modExp 16#32 (BitVec.ofNat 32 (m - 1 - k)) (BitVec.ofNat 32 (8 * k + c))).toNat =
      16 ^ (m - 1 - k) % (8 * k + c) := by
  have hexponent : (BitVec.ofNat 32 (m - 1 - k)).toNat = m - 1 - k := by
    rw [BitVec.toNat_ofNat, Nat.mod_eq_of_lt (by omega)]
  have hmodulus : (BitVec.ofNat 32 (8 * k + c)).toNat = 8 * k + c := by
    rw [BitVec.toNat_ofNat, Nat.mod_eq_of_lt (by omega)]
  have hne : BitVec.ofNat 32 (8 * k + c) ≠ 0 := by
    intro h
    have h0 : 8 * k + c = 0 := hmodulus.symm.trans (congrArg BitVec.toNat h)
    omega
  rw [modExp_toNat _ _ _ hne, hexponent, hmodulus]
  rfl

/-- The units' finite part, from any term and sum, is a sum over the terms to come. -/
theorem finiteSum_eq_foldl {c m : ℕ} (hc : 1 ≤ c) (hc6 : c ≤ 6) (hm : m ≤ 0x20000000) {n k : ℕ} (hk : k + n ≤ m)
    (acc : Fp) : finiteSum fpOps m c n k acc =
      (List.range' k n).foldl (fun acc k => fpOps.fadd acc (finiteTermFormula c m k)) acc := by
  induction n generalizing k acc with
  | zero => rfl
  | succ n ih =>
    rw [finiteSum, modExp_sixteen hc hc6 hm (by omega), ih (by omega), List.range'_succ, List.foldl_cons]
    rfl

/-- The units' tail, likewise. -/
theorem tailSum_eq_foldl (c m n i : ℕ) (acc : Fp) : tailSum fpOps m c n (m + i) acc =
    (List.range' i n).foldl (fun acc i => fpOps.fadd acc (tailTermFormula c m i)) acc := by
  induction n generalizing i acc with
  | zero => rfl
  | succ n ih =>
    rw [tailSum, Nat.add_assoc m i 1, ih, Nat.add_sub_cancel_left, List.range'_succ, List.foldl_cons]
    rfl

/-- The values of the series constants (R7). -/
theorem SeriesConst.val_mem (c : SeriesConst) : 1 ≤ c.val ∧ c.val ≤ 6 := by
  cases c <;> decide

/-- The units' series sum is the formula's (R93). -/
theorem seriesSum_eq_formula (c : SeriesConst) {m : ℕ} (hm : m ≤ 0x20000000) :
    seriesSum fpOps c m = seriesFormula c.val m := by
  obtain ⟨hc, hc6⟩ := SeriesConst.val_mem c
  have hfinite : finiteValue fpOps c m = finiteFormula c.val m := by
    rw [finiteValue, finiteSum_eq_foldl hc hc6 hm (by omega), ← List.range_eq_range']
    rfl
  have htail : tailValue fpOps c m = tailFormula c.val m :=
    tailSum_eq_foldl c.val m 5 0 (fpOps.toF 0)
  rw [seriesSum, hfinite, htail, seriesFormula]

/-- Settles O32: the units' four series sums are the formulas', at m = n + 1. -/
theorem hexDigitIsThatOfTheFormulas : Obligations.HexDigitIsThatOfTheFormulas := by
  intro n hn
  have hsum (c : SeriesConst) : seriesSum fpOps c (n.toNat + 1) = seriesFormula c.val (n.toNat + 1) :=
    seriesSum_eq_formula c (by omega)
  rw [hexDigitAt, hexDigitRun_eq fpOps n _ hn, hsum, hsum, hsum, hsum]
  rfl

/-- Settles O33: the write accepts HEXDIGIT and captures ARG0, and the completion writes the digit of its index. -/
theorem hexdigitLeavesTheDigitInResult : Obligations.HexdigitLeavesTheDigitInResult := by
  intro s _ hidle hn
  have hvalue : ((s.accepted 2 .hexdigit).complete (s.capture .hexdigit)).result =
      (digitOfRaw (rawFormula (s.arg0.toNat + 1))).setWidth 32 := by
    rw [← hexDigitIsThatOfTheFormulas s.arg0 hn]
    exact completionRun_eq_completionValue (s.capture .hexdigit) s.datapath nofun
  refine ⟨_, runSteps_issue_complete (execHexdigit_idle_ok hidle hn), hvalue,
    completionRun_hexdigit_le (p := s.capture .hexdigit) rfl s.datapath, rfl, rfl, rfl, rfl, rfl, rfl, rfl⟩

/-! ### Worked values -/

/-- Settles O34: no term is added to +0.0, and the tails at index 0 are the sums with it. -/
theorem emptyFinitePartIsZero : Obligations.EmptyFinitePartIsZero := by
  unfold Obligations.EmptyFinitePartIsZero
  decide +kernel

/-- The digit at index 1 (R97). -/
theorem hexDigitAt_one : hexDigitAt 1 = 4 := by decide +kernel

/-- At series index 0 the formula gives the integer part of π (R89). -/
theorem digitOfRaw_rawFormula_zero : digitOfRaw (rawFormula 0) = 3 := by decide +kernel

/-- Settles O35: the units run at indices 0, 1 and 3, and the formula at m = 0. -/
theorem workedDigitsOfPi : Obligations.WorkedDigitsOfPi :=
  ⟨hexDigitAt_zero, hexDigitAt_one, hexDigitAt_three, digitOfRaw_rawFormula_zero⟩

end Sys2Proof.Machine
end
